-- ==== Sys2Proof/Word.lean ====
section
/-! DEFINITION. The widths of the machine's values (spec/00_scope.md R5, R6, R7): bytes of memory and general
registers, 16-bit words (`pc`, `I`, stack entries, instruction words), 12-bit addresses inside an instruction, and the
numbers of registers, keys and sprite rows. All values are unsigned (R7). -/

namespace Sys2Proof

/-- 8 bits: a general register, a byte of memory, a timer (R5 `V_WIDTH`). -/
abbrev Byte := BitVec 8

/-- 16 bits: `pc`, `I`, a stack entry, an instruction word (R5 `I_WIDTH`, `PC_WIDTH`, `STACK_ENTRY_WIDTH`; R70). -/
abbrev Word := BitVec 16

/-- The 12-bit immediate `nnn` (R71). -/
abbrev Addr12 := BitVec 12

/-- The number of a general register, 0..15 (R20). -/
abbrev Reg := Fin 16

/-- The number of a key, 0..15 (R33). -/
abbrev Key := Fin 16

/-- VF, the flag register, is `V[15]` (R22). -/
abbrev vf : Reg := 15

/-- The 16 general registers (R20). -/
abbrev RegFile := Vector Byte 16

/-- The frame buffer: 32 rows of 64 pixels, `fb[y][x]`, `true` = lit (R32). -/
abbrev FrameBuffer := Vector (Vector Bool 64) 32

/-- The 16 key flags, `true` = down (R33). -/
abbrev KeyState := Vector Bool 16

/-- `FONT_BASE`: any address with `FONT_BASE + 80 <= PROG_ORIGIN`, that is 0..432 (R5, R59). -/
abbrev FontBase := Fin 433

/-- A memory: the bytes that differ from what reset left, as (address, byte) pairs (R34, R50). -/
abbrev Memory := List Host.Cell

end Sys2Proof
end

