-- ==== Sys2Proof/Syntax.lean ====
section
/-! DEFINITION. The instructions: one constructor per row of spec/opcode_table.json (spec/30_encoding.md R74), with the
fields that the row uses (R71): register numbers `x`, `y`; immediates `n` (rows of a sprite), `nn`, `nnn`. -/

namespace Sys2Proof

/-- The 35 instructions of R74, in the table's order. -/
inductive Instr where
  /-- 00E0 `CLS` (R184) -/
  | cls
  /-- 00EE `RET` (R101) -/
  | ret
  /-- 0NNN `SYS nnn`, not 00E0 or 00EE (R77, R109) -/
  | sys (nnn : Addr12)
  /-- 1NNN `JP nnn` (R102) -/
  | jp (nnn : Addr12)
  /-- 2NNN `CALL nnn` (R103) -/
  | call (nnn : Addr12)
  /-- 3XNN `SE Vx, nn` (R104) -/
  | seImm (x : Reg) (nn : Byte)
  /-- 4XNN `SNE Vx, nn` (R105) -/
  | sneImm (x : Reg) (nn : Byte)
  /-- 5XY0 `SE Vx, Vy` (R106) -/
  | seReg (x y : Reg)
  /-- 6XNN `LD Vx, nn` (R121) -/
  | ldImm (x : Reg) (nn : Byte)
  /-- 7XNN `ADD Vx, nn` (R122) -/
  | addImm (x : Reg) (nn : Byte)
  /-- 8XY0 `LD Vx, Vy` (R123) -/
  | ldReg (x y : Reg)
  /-- 8XY1 `OR Vx, Vy` (R124) -/
  | orReg (x y : Reg)
  /-- 8XY2 `AND Vx, Vy` (R125) -/
  | andReg (x y : Reg)
  /-- 8XY3 `XOR Vx, Vy` (R126) -/
  | xorReg (x y : Reg)
  /-- 8XY4 `ADD Vx, Vy` (R127) -/
  | addReg (x y : Reg)
  /-- 8XY5 `SUB Vx, Vy` (R128) -/
  | subReg (x y : Reg)
  /-- 8XY6 `SHR Vx, Vy` (R129) -/
  | shrReg (x y : Reg)
  /-- 8XY7 `SUBN Vx, Vy` (R130) -/
  | subnReg (x y : Reg)
  /-- 8XYE `SHL Vx, Vy` (R131) -/
  | shlReg (x y : Reg)
  /-- 9XY0 `SNE Vx, Vy` (R107) -/
  | sneReg (x y : Reg)
  /-- ANNN `LD I, nnn` (R141) -/
  | ldI (nnn : Addr12)
  /-- BNNN `JP V0, nnn` (R108) -/
  | jpV0 (nnn : Addr12)
  /-- CXNN `RND Vx, nn` (R165) -/
  | rnd (x : Reg) (nn : Byte)
  /-- DXYN `DRW Vx, Vy, n` (R185) -/
  | drw (x y : Reg) (n : Fin 16)
  /-- EX9E `SKP Vx` (R167) -/
  | skp (x : Reg)
  /-- EXA1 `SKNP Vx` (R168) -/
  | sknp (x : Reg)
  /-- FX07 `LD Vx, DT` (R161) -/
  | ldVxDT (x : Reg)
  /-- FX0A `LD Vx, K` (R169) -/
  | ldVxK (x : Reg)
  /-- FX15 `LD DT, Vx` (R162) -/
  | ldDTVx (x : Reg)
  /-- FX18 `LD ST, Vx` (R163) -/
  | ldSTVx (x : Reg)
  /-- FX1E `ADD I, Vx` (R142) -/
  | addI (x : Reg)
  /-- FX29 `LD F, Vx` (R143) -/
  | ldF (x : Reg)
  /-- FX33 `LD B, Vx` (R144) -/
  | ldB (x : Reg)
  /-- FX55 `LD [I], Vx` (R145) -/
  | ldMemVx (x : Reg)
  /-- FX65 `LD Vx, [I]` (R146) -/
  | ldVxMem (x : Reg)
deriving DecidableEq, Repr

end Sys2Proof
end

