-- ==== Sys2Proof/WellFormed.lean ====
section
/-! DEFINITION. Which terms of Instr stand for an instruction of the map (spec/30_encoding.md R74). The types already
hold every field to its width (R71), so one check is left: row 3 (`SYS nnn`) applies "only when rows 1 and 2 do not",
so its `nnn` is neither 0x0E0 (`CLS`) nor 0x0EE (`RET`). -/

namespace Sys2Proof

/-- The check of R74 row 3 and R77; every other constructor's fields are all admitted (R73, R78). -/
def Instr.isWellFormed : Instr → Bool
  | .sys nnn => nnn != 0x0E0#12 && nnn != 0x0EE#12
  | .cls | .ret | .jp _ | .call _ | .seImm _ _ | .sneImm _ _ | .seReg _ _ | .ldImm _ _ | .addImm _ _ => true
  | .ldReg _ _ | .orReg _ _ | .andReg _ _ | .xorReg _ _ | .addReg _ _ | .subReg _ _ | .shrReg _ _ => true
  | .subnReg _ _ | .shlReg _ _ | .sneReg _ _ | .ldI _ | .jpV0 _ | .rnd _ _ | .drw _ _ _ => true
  | .skp _ | .sknp _ | .ldVxDT _ | .ldVxK _ | .ldDTVx _ | .ldSTVx _ | .addI _ | .ldF _ | .ldB _ => true
  | .ldMemVx _ | .ldVxMem _ => true

/-- A well-formed instruction, as a proposition. -/
abbrev WellFormed (i : Instr) : Prop := i.isWellFormed = true

end Sys2Proof
end

