-- ==== Sys2Proof/Decode.lean ====
section
/-! DEFINITION. Decoding and encoding (spec/30_encoding.md). Decoding is a pure function of the 16-bit word (R75), total,
and rejects by name: an illegal word (R76), or fewer than two bytes. The encoder writes each instruction's word from the
pattern column of R74. -/

namespace Sys2Proof

/-- What a word decodes to: an instruction of R74, or none of them (R76). -/
inductive DecodeResult where
  | instr (i : Instr)
  | illegal (w : Word)
deriving DecidableEq, Repr

/-- What a sequence of bytes decodes to: an instruction and the bytes after it, an illegal first word, or too few bytes
for a word. -/
inductive DecodedBytes where
  | instr (i : Instr) (rest : List Byte)
  | illegal (w : Word) (rest : List Byte)
  | truncated
deriving DecidableEq, Repr

/-- `op = w[15:12]` (R71). -/
def opField (w : Word) : Nat := w.toNat / 4096

/-- `x = w[11:8]` (R71). -/
def xField (w : Word) : Reg := ⟨w.toNat / 256 % 16, Nat.mod_lt _ (by decide)⟩

/-- `y = w[7:4]` (R71). -/
def yField (w : Word) : Reg := ⟨w.toNat / 16 % 16, Nat.mod_lt _ (by decide)⟩

/-- `n = w[3:0]` (R71). -/
def nField (w : Word) : Fin 16 := ⟨w.toNat % 16, Nat.mod_lt _ (by decide)⟩

/-- `nn = w[7:0]` (R71). -/
def nnField (w : Word) : Byte := w.setWidth 8

/-- `nnn = w[11:0]` (R71). -/
def nnnField (w : Word) : Addr12 := w.setWidth 12

/-- Family 8, by `n` (R75). -/
def decodeAlu (w : Word) : DecodeResult :=
  if nField w = 0x0 then .instr (.ldReg (xField w) (yField w))
  else if nField w = 0x1 then .instr (.orReg (xField w) (yField w))
  else if nField w = 0x2 then .instr (.andReg (xField w) (yField w))
  else if nField w = 0x3 then .instr (.xorReg (xField w) (yField w))
  else if nField w = 0x4 then .instr (.addReg (xField w) (yField w))
  else if nField w = 0x5 then .instr (.subReg (xField w) (yField w))
  else if nField w = 0x6 then .instr (.shrReg (xField w) (yField w))
  else if nField w = 0x7 then .instr (.subnReg (xField w) (yField w))
  else if nField w = 0xE then .instr (.shlReg (xField w) (yField w))
  else .illegal w

/-- Family E, by `nn` (R75). -/
def decodeKey (w : Word) : DecodeResult :=
  if nnField w = 0x9E#8 then .instr (.skp (xField w))
  else if nnField w = 0xA1#8 then .instr (.sknp (xField w))
  else .illegal w

/-- Family F, by `nn` (R75). -/
def decodeMisc (w : Word) : DecodeResult :=
  if nnField w = 0x07#8 then .instr (.ldVxDT (xField w))
  else if nnField w = 0x0A#8 then .instr (.ldVxK (xField w))
  else if nnField w = 0x15#8 then .instr (.ldDTVx (xField w))
  else if nnField w = 0x18#8 then .instr (.ldSTVx (xField w))
  else if nnField w = 0x1E#8 then .instr (.addI (xField w))
  else if nnField w = 0x29#8 then .instr (.ldF (xField w))
  else if nnField w = 0x33#8 then .instr (.ldB (xField w))
  else if nnField w = 0x55#8 then .instr (.ldMemVx (xField w))
  else if nnField w = 0x65#8 then .instr (.ldVxMem (xField w))
  else .illegal w

/-- Step (2) of R75, by `op`, with step (1) inside family 0. -/
def decodeFamily (op : Nat) (w : Word) : DecodeResult :=
  match op with
  | 0x0 =>
    if w = 0x00E0#16 then .instr .cls
    else if w = 0x00EE#16 then .instr .ret
    else .instr (.sys (nnnField w))
  | 0x1 => .instr (.jp (nnnField w))
  | 0x2 => .instr (.call (nnnField w))
  | 0x3 => .instr (.seImm (xField w) (nnField w))
  | 0x4 => .instr (.sneImm (xField w) (nnField w))
  | 0x5 => if nField w = 0 then .instr (.seReg (xField w) (yField w)) else .illegal w
  | 0x6 => .instr (.ldImm (xField w) (nnField w))
  | 0x7 => .instr (.addImm (xField w) (nnField w))
  | 0x8 => decodeAlu w
  | 0x9 => if nField w = 0 then .instr (.sneReg (xField w) (yField w)) else .illegal w
  | 0xA => .instr (.ldI (nnnField w))
  | 0xB => .instr (.jpV0 (nnnField w))
  | 0xC => .instr (.rnd (xField w) (nnField w))
  | 0xD => .instr (.drw (xField w) (yField w) (nField w))
  | 0xE => decodeKey w
  | 0xF => decodeMisc w
  | _ => .illegal w

/-- The decoding algorithm of R75. -/
def decodeWord (w : Word) : DecodeResult := decodeFamily (opField w) w

/-- The word of two bytes: the byte at the lower address is the high byte (spec/20_memory.md R57). -/
def wordOfBytes (hi lo : Byte) : Word := hi ++ lo

/-- Decode from bytes in memory order (R57, R70). -/
def decode : List Byte → DecodedBytes
  | hi :: lo :: rest =>
    match decodeWord (wordOfBytes hi lo) with
    | .instr i => .instr i rest
    | .illegal w => .illegal w rest
  | [_] => .truncated
  | [] => .truncated

/-- Format `NNN` (R72): `op` and `nnn`. -/
def wordNNN (op : Nat) (nnn : Addr12) : Word := BitVec.ofNat 16 (op * 4096 + nnn.toNat)

/-- Format `XNN` (R72): `op`, `x` and `nn`; also format `X`, whose `nn` is the sub-opcode. -/
def wordXNN (op : Nat) (x : Reg) (nn : Byte) : Word := BitVec.ofNat 16 (op * 4096 + x.val * 256 + nn.toNat)

/-- Format `XYN` (R72): `op`, `x`, `y` and `n`; also format `XY`, whose `n` is the sub-opcode. -/
def wordXYN (op : Nat) (x y : Reg) (n : Fin 16) : Word :=
  BitVec.ofNat 16 (op * 4096 + x.val * 256 + y.val * 16 + n.val)

/-- The word of an instruction, from the pattern column of R74. -/
def encode : Instr → Word
  | .cls => 0x00E0#16
  | .ret => 0x00EE#16
  | .sys nnn => wordNNN 0x0 nnn
  | .jp nnn => wordNNN 0x1 nnn
  | .call nnn => wordNNN 0x2 nnn
  | .seImm x nn => wordXNN 0x3 x nn
  | .sneImm x nn => wordXNN 0x4 x nn
  | .seReg x y => wordXYN 0x5 x y 0x0
  | .ldImm x nn => wordXNN 0x6 x nn
  | .addImm x nn => wordXNN 0x7 x nn
  | .ldReg x y => wordXYN 0x8 x y 0x0
  | .orReg x y => wordXYN 0x8 x y 0x1
  | .andReg x y => wordXYN 0x8 x y 0x2
  | .xorReg x y => wordXYN 0x8 x y 0x3
  | .addReg x y => wordXYN 0x8 x y 0x4
  | .subReg x y => wordXYN 0x8 x y 0x5
  | .shrReg x y => wordXYN 0x8 x y 0x6
  | .subnReg x y => wordXYN 0x8 x y 0x7
  | .shlReg x y => wordXYN 0x8 x y 0xE
  | .sneReg x y => wordXYN 0x9 x y 0x0
  | .ldI nnn => wordNNN 0xA nnn
  | .jpV0 nnn => wordNNN 0xB nnn
  | .rnd x nn => wordXNN 0xC x nn
  | .drw x y n => wordXYN 0xD x y n
  | .skp x => wordXNN 0xE x 0x9E#8
  | .sknp x => wordXNN 0xE x 0xA1#8
  | .ldVxDT x => wordXNN 0xF x 0x07#8
  | .ldVxK x => wordXNN 0xF x 0x0A#8
  | .ldDTVx x => wordXNN 0xF x 0x15#8
  | .ldSTVx x => wordXNN 0xF x 0x18#8
  | .addI x => wordXNN 0xF x 0x1E#8
  | .ldF x => wordXNN 0xF x 0x29#8
  | .ldB x => wordXNN 0xF x 0x33#8
  | .ldMemVx x => wordXNN 0xF x 0x55#8
  | .ldVxMem x => wordXNN 0xF x 0x65#8

/-- The high byte of a word (stored at the lower address, R57). -/
def hiByte (w : Word) : Byte := BitVec.ofNat 8 (w.toNat / 256)

/-- The low byte of a word (stored at the higher address, R57). -/
def loByte (w : Word) : Byte := w.setWidth 8

/-- The two bytes of an instruction in memory order (R57, R70). -/
def encodeBytes (i : Instr) : List Byte := [hiByte (encode i), loByte (encode i)]

/-- The word that the host's table numbering names: bit 0 is the least significant bit of the one word; bits at and
above `nbits` are 0. -/
def tableWord (nbits w : Nat) : Word := BitVec.ofNat 16 (w % 2 ^ nbits)

/-- The instruction the decoder reads from a table word, laid out as the hardware stores it (R57). -/
def decodeTableWord (nbits w : Nat) : Option Instr :=
  match decode [hiByte (tableWord nbits w), loByte (tableWord nbits w)] with
  | .instr i _ => some i
  | .illegal _ _ => none
  | .truncated => none

end Sys2Proof
end

