-- ==== Sys2Proof/Machine/FrameBuffer.lean ====
section
/-! DEFINITION. The frame-buffer unit: `clear` and `draw` with the collision detector (spec/45_display.md R180 to R183).
Drawing "does not touch registers directly": it returns the buffer and one collision bit. -/

namespace Sys2Proof.Machine

/-- `FB[y mod 32][x mod 64]`: "all pixel coordinates are wrapped modulo grid dimensions before any read/write"
(spec/10_state.md R32). -/
def FrameBuffer.pixel (fb : FrameBuffer) (x y : Nat) : Bool :=
  (fb[y % 32]'(Nat.mod_lt _ (by decide)))[x % 64]'(Nat.mod_lt _ (by decide))

/-- Write one pixel at wrapped coordinates. -/
def FrameBuffer.setPixel (fb : FrameBuffer) (x y : Nat) (lit : Bool) : FrameBuffer :=
  fb.set (y % 32)
    ((fb[y % 32]'(Nat.mod_lt _ (by decide))).set (x % 64) lit (Nat.mod_lt _ (by decide)))
    (Nat.mod_lt _ (by decide))

/-- `clear()` (R181): every pixel 0. -/
def FrameBuffer.clear : FrameBuffer := Vector.replicate 32 (Vector.replicate 64 false)

/-- Sprite bit of column `b` of a row: bit `7 - b`, most significant bit leftmost (R182). -/
def spriteBit (row : Byte) (b : Nat) : Bool := row.getLsbD (7 - b)

/-- One sprite bit XORed into its pixel, the collision accumulated (the loop body of R182, R183). -/
def drawBit (x y : Nat) (bit : Bool) (acc : FrameBuffer × Bool) : FrameBuffer × Bool :=
  let old := FrameBuffer.pixel acc.1 x y
  (FrameBuffer.setPixel acc.1 x y (old ^^ bit), acc.2 || (bit && old))

/-- One sprite row, columns left to right (R182). -/
def drawRow (x0 y : Nat) (row : Byte) (acc : FrameBuffer × Bool) : FrameBuffer × Bool :=
  (List.range 8).foldl (fun a b => drawBit (x0 + b) y (spriteBit row b) a) acc

/-- The sprite's rows from screen row `y` on, top to bottom (R182). -/
def drawRows (x0 : Nat) : Nat → List Byte → FrameBuffer × Bool → FrameBuffer × Bool
  | _, [], acc => acc
  | y, row :: rows, acc => drawRows x0 (y + 1) rows (drawRow x0 y row acc)

/-- `draw(x0, y0, rows)` (R182): the buffer after, and whether any lit pixel was turned off (R183). -/
def FrameBuffer.draw (fb : FrameBuffer) (x0 y0 : Nat) (rows : List Byte) : FrameBuffer × Bool :=
  drawRows x0 y0 rows (fb, false)

end Sys2Proof.Machine
end

