-- ==== Sys2Proof/Config.lean ====
section
/-! DEFINITION. What is fixed for one machine and what the spec leaves free (spec/00_scope.md R5). The sizes the spec
fixes stand in the types of Word.lean and as the numerals below; the value of `FONT_BASE` is a field of State, so that
every statement holds for every legal base. The two opaque constants are FREE VALUES: they have no body, so nothing can
be proved of what they are. -/

namespace Sys2Proof.Config

/-- `MEM_SIZE`: 4096 bytes, addresses 0..4095 (R5). -/
abbrev memSize : Nat := 4096

/-- `PROG_ORIGIN`: the program is loaded at 0x200 and `pc` resets to it (R5). -/
abbrev progOrigin : Nat := 0x200

/-- `STACK_DEPTH`: 16 entries (R5, R31, decision D7). -/
abbrev stackDepth : Nat := 16

/-- `TIMER_HZ`: nominal rate of the `tick` event; nothing in the model depends on it (R5, R262). -/
abbrev timerHz : Nat := 60

/-- `rand8`: the random byte of the n-th free draw. "Each execution of `RND` therefore takes a free 8-bit input `rand8`
in 0..255 that no rule constrains" (spec/44_timers_random_input.md R166). DESIGN CHOICE of form: log entry 3. -/
opaque rand8 : Nat → Byte

/-- The `fault_info` recorded with a stack fault: "for the two stack faults, nothing (unspecified value)"
(spec/60_exceptions.md R227). A free value: log entry 4. -/
opaque unspecifiedInfo : Nat → BitVec 17

end Sys2Proof.Config
end

