-- ==== Sys2Proof/Machine/Memory.lean ====
section
/-! DEFINITION. Memory as a list of cells in one canonical form (spec/20_memory.md). An address that the list does not
name reads as what reset left there: the font at `FONT_BASE`, 0x00 elsewhere (R59, R60; spec/10_state.md R38). -/

namespace Sys2Proof.Machine

/-- The value of `FONT_BASE` after reset: "0x050 (default; named parameter)" (spec/00_scope.md R5, decision D5; log
entry 8). -/
def defaultFontBase : FontBase := 0x050

/-- `FONT_TABLE`: glyphs 0 to F, 5 bytes each (R59, decision D6). -/
def fontTable : List Byte :=
  [0xF0, 0x90, 0x90, 0x90, 0xF0] ++ [0x20, 0x60, 0x20, 0x20, 0x70] ++ [0xF0, 0x10, 0xF0, 0x80, 0xF0] ++
  [0xF0, 0x10, 0xF0, 0x10, 0xF0] ++ [0x90, 0x90, 0xF0, 0x10, 0x10] ++ [0xF0, 0x80, 0xF0, 0x10, 0xF0] ++
  [0xF0, 0x80, 0xF0, 0x90, 0xF0] ++ [0xF0, 0x10, 0x20, 0x40, 0x40] ++ [0xF0, 0x90, 0xF0, 0x90, 0xF0] ++
  [0xF0, 0x90, 0xF0, 0x10, 0xF0] ++ [0xF0, 0x90, 0xF0, 0x90, 0x90] ++ [0xE0, 0x90, 0xE0, 0x90, 0xE0] ++
  [0xF0, 0x80, 0x80, 0x80, 0xF0] ++ [0xE0, 0x90, 0x90, 0x90, 0xE0] ++ [0xF0, 0x80, 0xF0, 0x80, 0xF0] ++
  [0xF0, 0x80, 0xF0, 0x80, 0x80]

/-- What an unlisted address reads as: its content after reset (R59, R60; R38 with decision D22). -/
def resetByte (fontBase : FontBase) (a : Nat) : Byte :=
  if fontBase.val ≤ a ∧ a < fontBase.val + 80 then fontTable.getD (a - fontBase.val) 0x00#8 else 0x00#8

/-- The byte listed at an address, if one is. -/
def Memory.listed : Memory → Nat → Option Byte
  | [], _ => none
  | (b, v) :: m, a => if a = b then some v else Memory.listed m a

/-- The list without a cell for an address. -/
def Memory.erase : Memory → Nat → Memory
  | [], _ => []
  | (b, v) :: m, a => if a = b then m else (b, v) :: Memory.erase m a

/-- The list with one cell set, its addresses kept rising. -/
def Memory.insert : Memory → Nat → Byte → Memory
  | [], a, v => [(a, v)]
  | (b, u) :: m, a, v =>
    if a < b then (a, v) :: (b, u) :: m
    else if a = b then (a, v) :: m
    else (b, u) :: Memory.insert m a v

/-- The byte at an address inside 0..4095 (R50, R51). -/
def Memory.read (fontBase : FontBase) (m : Memory) (a : Nat) : Byte :=
  (Memory.listed m a).getD (resetByte fontBase a)

/-- The memory with the byte at an address replaced (R52); a byte equal to what the address reads as unlisted is not
listed. -/
def Memory.write (fontBase : FontBase) (m : Memory) (a : Nat) (v : Byte) : Memory :=
  if v = resetByte fontBase a then Memory.erase m a else Memory.insert m a v

/-- The canonical form: addresses rising and below 4096 (R50), no cell equal to what its address reads as unlisted. -/
abbrev Memory.wf (fontBase : FontBase) (m : Memory) : Prop :=
  m.Pairwise (fun p q => p.1 < q.1) ∧ ∀ c ∈ m, c.1 < 4096 ∧ c.2 ≠ resetByte fontBase c.1

end Sys2Proof.Machine
end

