-- ==== Sys2Proof/Machine/State.lean ====
section
/-! DEFINITION. The machine's state as plain data (spec/10_state.md), the four fatal errors, the agents' moves, the
output events, and the state after reset (R38). The spec's names are kept for the spec's registers. -/

namespace Sys2Proof.Machine

/-- The four fatal errors of spec/60_exceptions.md R220, a closed list. Raising one is the spec's trap entry (R225): it
latches the kind in `State.fault` and the step ENDS IN A NEXT STATE. So these are values of the latch; no step of this
model stops with `Outcome.fault` (log entry 1: safe, since everything the spec says of a fault is in that next state). -/
inductive Fault where
  /-- Raised by a fetch, `DRW`, `LD B,Vx`, `LD [I],Vx`, `LD Vx,[I]` or a load that reaches an address above 4095 (R221).
  Safe: the spec describes it. -/
  | addressOutOfBounds
  /-- Raised by `RET` with an empty stack (R222). Safe: the spec describes it. -/
  | stackUnderflow
  /-- Raised by `CALL` with a full stack (R223). Safe: the spec describes it. -/
  | stackOverflow
  /-- Raised by the step for a word outside the set, and by `SYS nnn` (R224, R109). Safe: the spec describes it. -/
  | unknownOpcode
deriving DecidableEq, Repr

/-- The reasons for a step without a meaning. Every instruction of the table has one, so no step answers with this. -/
inductive Refusal where
  /-- An instruction the model does not give a meaning yet; raised by no arm of `exec`. Safe. -/
  | notModelled (mnemonic : String)
deriving DecidableEq, Repr

/-- One move of one agent (spec/00_scope.md R11), each atomic (spec/40_cycle.md R95). -/
inductive Move where
  /-- One `step` event: the CPU runs one instruction (R201). -/
  | cpu
  /-- One `tick` event of the Timer Unit (R202). -/
  | tick
  /-- The key source sets (`true`) or clears one flag (R205). -/
  | key (k : Key) (down : Bool)
  /-- `reset`, and then the load of a program, at most once and before any step (R203, R207, R211, R252); an empty
  program is a reset alone. -/
  | boot (program : List Byte)
deriving DecidableEq, Repr

/-- An output event (spec/50_interfaces.md R200). -/
inductive Event where
  /-- The renderer may read the frame buffer (R186). -/
  | redraw
  /-- The sound timer went from zero to non-zero (R164). -/
  | toneStart
  /-- A write changed `V[i]` (R209). -/
  | regChanged (i : Reg) (new : Byte)
  /-- A write changed `pc` (R209). -/
  | pcChanged (new : Word)
  /-- A write changed `mem[addr]` (R209). -/
  | memChanged (addr : Nat) (new : Byte)
deriving DecidableEq, Repr

/-- The complete state (spec/10_state.md, opening sentence; R35, R36, R37), and below it the model's own fields. -/
structure State where
  /-- The general registers (R20); `V[15]` is VF (R22). -/
  V : RegFile
  /-- The index register (R27). -/
  I : Word
  /-- The program counter (R24). -/
  pc : Word
  /-- The stack depth, 0..16 (R31). -/
  SP : Fin 17
  /-- The stack entries; the live ones are below `SP` (R31). -/
  STACK : Vector Word 16
  /-- The delay timer (R29). -/
  DT : Byte
  /-- The sound timer (R30). -/
  ST : Byte
  /-- The frame buffer (R32). -/
  FB : FrameBuffer
  /-- The memory (R34). -/
  mem : Memory
  /-- The key flags (R33); only the key source changes them. -/
  KEY : KeyState
  /-- The fault latch, `none` = running (R36). -/
  fault : Option Fault
  /-- The value recorded with the fault (R227). -/
  faultInfo : BitVec 17
  /-- MODEL'S OWN: the parameter `FONT_BASE` (spec/00_scope.md R5); no move changes it (log entry 8). -/
  fontBase : FontBase
  /-- MODEL'S OWN: how many free values have been used (log entries 3 and 4). -/
  draws : Nat
  /-- MODEL'S OWN: the coming moves of the agents; when it is empty the CPU moves (R96; log entry 2). -/
  schedule : List Move
  /-- MODEL'S OWN: the output events of the latest move, oldest first (log entry 10). -/
  events : List Event
deriving DecidableEq, Repr

/-- The state after reset (R38, spec/70_reset_and_hazards.md R250). `STACK` and `faultInfo` are unspecified there and
take a named value (log entries 5 and 6); the model's own fields: log entries 2, 3, 8, 10. -/
def State.reset : State where
  V := Vector.replicate 16 0x00#8
  I := 0x0000#16
  pc := 0x0200#16
  SP := 0
  STACK := Vector.replicate 16 0x0000#16
  DT := 0x00#8
  ST := 0x00#8
  FB := Vector.replicate 32 (Vector.replicate 64 false)
  mem := []
  KEY := Vector.replicate 16 false
  fault := none
  faultInfo := 0#17
  fontBase := defaultFontBase
  draws := 0
  schedule := []
  events := []

end Sys2Proof.Machine
end

