-- ==== Sys2Proof/Machine/Ops.lean ====
section
/-! DEFINITION. The named operations over the state: every register, memory, stack and frame-buffer write goes through
one of these, with its change notification (spec/50_interfaces.md R209), and raising a fault is one operation
(spec/60_exceptions.md R225). There is no return from a fault (R231): only a boot leaves the halted state. -/

namespace Sys2Proof.Machine

/-- What a step, an instruction or a load answers. -/
abbrev StepOutcome := Host.Outcome State Fault Refusal

/-- An action that may raise: it goes on with a value, or the step has ended in a halted state (R225). -/
inductive Act (α : Type) where
  | ok (a : α) (s : State)
  | halted (s : State)

/-- One action after another; "no further line of the instruction's pseudocode executes" after a raise (R225). -/
def Act.bind {α β : Type} (m : Act α) (f : α → State → Act β) : Act β :=
  match m with
  | .ok a s => f a s
  | .halted s => .halted s

/-- The state an action ends in. -/
def Act.state {α : Type} : Act α → State
  | .ok _ s => s
  | .halted s => s

/-- An instruction made of one action: either way the step ends in a next state (R94, R225). -/
def Act.outcome {α : Type} (m : Act α) : StepOutcome := .next m.state

/-! ## Output events -/

/-- `emit e` (R8). -/
def State.emit (s : State) (es : List Event) : State := { s with events := s.events ++ es }

/-- The notification of a write, "firing only on an actual value change" (R209). -/
def changed (differs : Bool) (e : Event) : List Event := if differs then [e] else []

/-- A new move begins with no events at the output ports. -/
def State.clearEvents (s : State) : State := { s with events := [] }

/-! ## Registers -/

/-- `V[x] <- v` (spec/10_state.md R21), with its notification (R209). -/
def State.setV (s : State) (x : Reg) (v : Byte) : State :=
  { s with V := s.V.set x.val v, events := s.events ++ changed (s.V[x.val] != v) (.regChanged x v) }

/-- `pc <- a` (R24), with its notification (R209). -/
def State.setPc (s : State) (a : Word) : State :=
  { s with pc := a, events := s.events ++ changed (s.pc != a) (.pcChanged a) }

/-- `I <- a` (R27). -/
def State.setI (s : State) (a : Word) : State := { s with I := a }

/-- `DT <- v` (R29). -/
def State.setDT (s : State) (v : Byte) : State := { s with DT := v }

/-- `ST <- v` (R30). -/
def State.setST (s : State) (v : Byte) : State := { s with ST := v }

/-- `FB <- fb` (R32). -/
def State.setFB (s : State) (fb : FrameBuffer) : State := { s with FB := fb }

/-- `KEY[k] <- down`: the key source's move (spec/50_interfaces.md R205). -/
def State.setKey (s : State) (k : Key) (down : Bool) : State := { s with KEY := s.KEY.set k.val down }

/-! ## Free values -/

/-- The free value of `rand8` at this state (spec/44_timers_random_input.md R166). -/
def State.rand8 (s : State) : Byte := Config.rand8 s.draws

/-- The next free value will be a fresh one. -/
def State.useDraw (s : State) : State := { s with draws := s.draws + 1 }

/-! ## Faults -/

/-- `raise E(info)` (R225): latch the kind and the information; nothing else changes. -/
def State.raise (s : State) (f : Fault) (info : BitVec 17) : State := { s with fault := some f, faultInfo := info }

/-- `raise AddressOutOfBounds(addr)`: the information is the unreduced address (R227). -/
def State.raiseAddress (s : State) (addr : Nat) : State := s.raise .addressOutOfBounds (BitVec.ofNat 17 addr)

/-- `raise UnknownOpcode(w)`: the information is the word (R227). -/
def State.raiseOpcode (s : State) (w : Word) : State := s.raise .unknownOpcode (w.setWidth 17)

/-- A stack fault: the information is an unspecified value (R227), a free value (log entry 4). -/
def State.raiseStack (s : State) (f : Fault) : State := (s.raise f (Config.unspecifiedInfo s.draws)).useDraw

/-! ## Memory -/

/-- The byte `mem[a]`. -/
def State.byteAt (s : State) (a : Nat) : Byte := Memory.read s.fontBase s.mem a

/-- `mem[a] <- v` with its notification (R52, R209), for an address inside the memory. -/
def State.setByte (s : State) (a : Nat) (v : Byte) : State :=
  { s with
    mem := Memory.write s.fontBase s.mem a v
    events := s.events ++ changed (s.byteAt a != v) (.memChanged a v) }

/-- `MemRead(addr, 1)` (spec/20_memory.md R51). -/
def memRead (addr : Nat) (s : State) : Act Byte :=
  if addr > 4095 then .halted (s.raiseAddress addr) else .ok (s.byteAt addr) s

/-- `MemWrite(addr, 1, v)` (R52). -/
def memWrite (addr : Nat) (v : Byte) (s : State) : Act Unit :=
  if addr > 4095 then .halted (s.raiseAddress addr) else .ok () (s.setByte addr v)

/-- `n` bytes read at ascending addresses (R140). -/
def readBytes (base : Nat) : Nat → State → Act (List Byte)
  | 0, s => .ok [] s
  | n + 1, s =>
    (memRead base s).bind fun b s => (readBytes (base + 1) n s).bind fun bs s => .ok (b :: bs) s

/-- Bytes written at ascending addresses; those before a fault stay (R140, R228). -/
def storeBytes (base : Nat) : List Byte → State → Act Unit
  | [], s => .ok () s
  | b :: bs, s => (memWrite base b s).bind fun _ s => storeBytes (base + 1) bs s

/-- The named registers loaded in order, `V[r] <- MemRead(base + r, 1)` (spec/43_index_memory.md R146). -/
def loadRegs (base : Nat) : List Reg → State → Act Unit
  | [], s => .ok () s
  | r :: rs, s => (memRead (base + r.val) s).bind fun b s => loadRegs base rs (s.setV r b)

/-! ## The call stack -/

/-- `Push(a)` (R55). -/
def push (a : Word) (s : State) : Act Unit :=
  if h : s.SP.val < 16 then
    .ok () { s with STACK := s.STACK.set s.SP.val a, SP := ⟨s.SP.val + 1, by omega⟩ }
  else .halted (s.raiseStack .stackOverflow)

/-- `Pop()` (R56): the popped entry stays in its place, dead. -/
def pop (s : State) : Act Word :=
  if h : 0 < s.SP.val then
    .ok (s.STACK[s.SP.val - 1]'(by omega)) { s with SP := ⟨s.SP.val - 1, by omega⟩ }
  else .halted (s.raiseStack .stackUnderflow)

/-! ## Control -/

/-- "Skipping the next instruction" is `pc <- pc + 2` on top of the post-fetch value (spec/40_cycle.md R98). -/
def State.skipIf (s : State) (c : Bool) : State := if c then s.setPc (s.pc + 2) else s

end Sys2Proof.Machine
end

