-- ==== Sys2Proof/Machine/Operands.lean ====
section
/-! DEFINITION. The operand forms (spec/30_encoding.md R73): a register by its number, an immediate as its bits stand,
memory at `I` plus a counting offset (spec/43_index_memory.md R140), and the selectors that take a low nibble. -/

namespace Sys2Proof.Machine

/-- A register operand `V[x]`. -/
def State.reg (s : State) (x : Reg) : Byte := s.V[x.val]

/-- `zext_16(nnn)` (R73). -/
def addrImm (nnn : Addr12) : Word := nnn.setWidth 16

/-- The base of every memory operand: `I`, as an integer, so that `I + k` never wraps (spec/20_memory.md R53). -/
def State.indexBase (s : State) : Nat := s.I.toNat

/-- `v[3:0]`, the selector of a key or of a font digit (decision D19; R143, R167, R168). -/
def lowNibble (v : Byte) : Fin 16 := ⟨v.toNat % 16, Nat.mod_lt _ (by decide)⟩

/-- The key flag that `V[x]` selects (R167). -/
def State.keyOf (s : State) (x : Reg) : Bool := s.KEY[(lowNibble (s.reg x)).val]

/-- The lowest key that is down, if any is (R169, R171 with decision D18). -/
def lowestKeyDown (keys : KeyState) : Option Key := (List.finRange 16).find? fun k => keys[k.val]

/-- The address of the glyph of a digit: `FONT_BASE + 5 * d` (R143). -/
def glyphAddress (fontBase : FontBase) (d : Fin 16) : Word := BitVec.ofNat 16 (fontBase.val + 5 * d.val)

/-- The three decimal digits of a byte, hundreds first (R144). -/
def bcdDigits (v : Byte) : List Byte :=
  [BitVec.ofNat 8 (v.toNat / 100), BitVec.ofNat 8 (v.toNat / 10 % 10), BitVec.ofNat 8 (v.toNat % 10)]

/-- The register numbers of a window, 0 to `x` inclusive, ascending (R145, R146). -/
def windowRegs (x : Reg) : List Reg := (List.finRange 16).take (x.val + 1)

/-- The contents of a window, `V[0]` to `V[x]` (R145). -/
def State.window (s : State) (x : Reg) : List Byte := (windowRegs x).map s.reg

end Sys2Proof.Machine
end

