-- ==== Sys2Proof/Machine/Flags.lean ====
section
/-! DEFINITION. The flag computations (spec/42_arith_logic.md R120, R127 to R132; spec/45_display.md R183). A flag is
written to VF as 0x00 or 0x01 (spec/10_state.md R22). -/

namespace Sys2Proof.Machine

/-- A flag as the byte written to VF (R22). -/
def flagByte (b : Bool) : Byte := if b then 0x01#8 else 0x00#8

/-- Carry out of bit 7: the 9-bit sum exceeds 255 (R127). -/
def carryOut (a b : Byte) : Bool := decide (a.toNat + b.toNat > 255)

/-- No borrow in `a - b`: `a >= b`, unsigned (R128, decision D14). -/
def noBorrow (a b : Byte) : Bool := decide (a.toNat ≥ b.toNat)

/-- The bit a right shift drops: bit 0 (R129). -/
def shiftedOutRight (v : Byte) : Bool := v.getLsbD 0

/-- The bit a left shift drops: bit 7 (R131). -/
def shiftedOutLeft (v : Byte) : Bool := v.getLsbD 7

/-- The order of the five flag-writing instructions: the flag to VF, then the result to `V[x]` (R120, decision D13); the
operands were read before. -/
def State.setFlagThenResult (s : State) (x : Reg) (flag : Bool) (result : Byte) : State :=
  (s.setV vf (flagByte flag)).setV x result

end Sys2Proof.Machine
end

