-- ==== Sys2Proof/Machine/ArithLogic.lean ====
section
/-! DEFINITION. The arithmetic and logic instructions (spec/42_arith_logic.md). All values are unsigned bytes, results
reduced modulo 256 (R120, R132); the operands are read before any write (spec/40_cycle.md R99). -/

namespace Sys2Proof.Machine

/-- `LD Vx, nn` (R121). -/
def execLdImm (x : Reg) (nn : Byte) (s : State) : StepOutcome := .next (s.setV x nn)

/-- `ADD Vx, nn` (R122): no flag. -/
def execAddImm (x : Reg) (nn : Byte) (s : State) : StepOutcome := .next (s.setV x (s.reg x + nn))

/-- `LD Vx, Vy` (R123). -/
def execLdReg (x y : Reg) (s : State) : StepOutcome := .next (s.setV x (s.reg y))

/-- `OR Vx, Vy` (R124): VF not written. -/
def execOrReg (x y : Reg) (s : State) : StepOutcome := .next (s.setV x (s.reg x ||| s.reg y))

/-- `AND Vx, Vy` (R125): VF not written. -/
def execAndReg (x y : Reg) (s : State) : StepOutcome := .next (s.setV x (s.reg x &&& s.reg y))

/-- `XOR Vx, Vy` (R126): VF not written. -/
def execXorReg (x y : Reg) (s : State) : StepOutcome := .next (s.setV x (s.reg x ^^^ s.reg y))

/-- `ADD Vx, Vy` (R127): VF = carry out. -/
def execAddReg (x y : Reg) (s : State) : StepOutcome :=
  .next (s.setFlagThenResult x (carryOut (s.reg x) (s.reg y)) (s.reg x + s.reg y))

/-- `SUB Vx, Vy` (R128): VF = no borrow of `Vx - Vy`. -/
def execSubReg (x y : Reg) (s : State) : StepOutcome :=
  .next (s.setFlagThenResult x (noBorrow (s.reg x) (s.reg y)) (s.reg x - s.reg y))

/-- `SHR Vx, Vy` (R129): copy, then shift; the old `V[x]` plays no part. -/
def execShrReg (x y : Reg) (s : State) : StepOutcome :=
  .next (s.setFlagThenResult x (shiftedOutRight (s.reg y)) (s.reg y >>> 1))

/-- `SUBN Vx, Vy` (R130): VF = no borrow of `Vy - Vx`. -/
def execSubnReg (x y : Reg) (s : State) : StepOutcome :=
  .next (s.setFlagThenResult x (noBorrow (s.reg y) (s.reg x)) (s.reg y - s.reg x))

/-- `SHL Vx, Vy` (R131): copy, then shift; the old `V[x]` plays no part. -/
def execShlReg (x y : Reg) (s : State) : StepOutcome :=
  .next (s.setFlagThenResult x (shiftedOutLeft (s.reg y)) (s.reg y <<< 1))

end Sys2Proof.Machine
end

