-- ==== Sys2Proof/Machine/ControlFlow.lean ====
section
/-! DEFINITION. The control-flow instructions (spec/41_control_flow.md). Each runs with `pc` already the post-fetch value
`a + 2` (R100). -/

namespace Sys2Proof.Machine

/-- `RET` (R101). -/
def execRet (s : State) : StepOutcome := ((pop s).bind fun t s => .ok () (s.setPc t)).outcome

/-- `SYS nnn` (R109, R77): raises `UnknownOpcode` with its own word `0x0nnn`. -/
def execSys (nnn : Addr12) (s : State) : StepOutcome := .next (s.raiseOpcode (addrImm nnn))

/-- `JP nnn` (R102). -/
def execJp (nnn : Addr12) (s : State) : StepOutcome := .next (s.setPc (addrImm nnn))

/-- `CALL nnn` (R103). -/
def execCall (nnn : Addr12) (s : State) : StepOutcome :=
  ((push s.pc s).bind fun _ s => .ok () (s.setPc (addrImm nnn))).outcome

/-- `SE Vx, nn` (R104). -/
def execSeImm (x : Reg) (nn : Byte) (s : State) : StepOutcome := .next (s.skipIf (s.reg x == nn))

/-- `SNE Vx, nn` (R105). -/
def execSneImm (x : Reg) (nn : Byte) (s : State) : StepOutcome := .next (s.skipIf (s.reg x != nn))

/-- `SE Vx, Vy` (R106). -/
def execSeReg (x y : Reg) (s : State) : StepOutcome := .next (s.skipIf (s.reg x == s.reg y))

/-- `SNE Vx, Vy` (R107). -/
def execSneReg (x y : Reg) (s : State) : StepOutcome := .next (s.skipIf (s.reg x != s.reg y))

/-- `JP V0, nnn` (R108): no reduction to 12 bits. -/
def execJpV0 (nnn : Addr12) (s : State) : StepOutcome := .next (s.setPc (addrImm nnn + (s.reg 0).setWidth 16))

end Sys2Proof.Machine
end

