-- ==== Sys2Proof/Machine/Display.lean ====
section
/-! DEFINITION. The display instructions (spec/45_display.md R184, R185, R186). -/

namespace Sys2Proof.Machine

/-- `CLS` (R184). -/
def execCls (s : State) : StepOutcome := .next ((s.setFB FrameBuffer.clear).emit [.redraw])

/-- The draw of R185 once the sprite's rows are read: pixels, then VF, then `redraw`. -/
def State.drawSprite (s : State) (x y : Reg) (rows : List Byte) : State :=
  let r := FrameBuffer.draw s.FB (s.reg x).toNat (s.reg y).toNat rows
  ((s.setFB r.1).setV vf (flagByte r.2)).emit [.redraw]

/-- `DRW Vx, Vy, n` (R185): all `n` rows are read before any pixel is changed. -/
def execDrw (x y : Reg) (n : Fin 16) (s : State) : StepOutcome :=
  ((readBytes s.indexBase n.val s).bind fun rows s => .ok () (s.drawSprite x y rows)).outcome

end Sys2Proof.Machine
end

