-- ==== Sys2Proof/Machine/IndexMemory.lean ====
section
/-! DEFINITION. The index-register and memory instructions (spec/43_index_memory.md). None writes VF as a side effect and
every memory instruction leaves `I` as it found it (R140). -/

namespace Sys2Proof.Machine

/-- `LD I, nnn` (R141). -/
def execLdI (nnn : Addr12) (s : State) : StepOutcome := .next (s.setI (addrImm nnn))

/-- `ADD I, Vx` (R142): modulo 65536, no flag. -/
def execAddI (x : Reg) (s : State) : StepOutcome := .next (s.setI (s.I + (s.reg x).setWidth 16))

/-- `LD F, Vx` (R143). -/
def execLdF (x : Reg) (s : State) : StepOutcome :=
  .next (s.setI (glyphAddress s.fontBase (lowNibble (s.reg x))))

/-- `LD B, Vx` (R144). -/
def execLdB (x : Reg) (s : State) : StepOutcome := (storeBytes s.indexBase (bcdDigits (s.reg x)) s).outcome

/-- `LD [I], Vx` (R145). -/
def execLdMemVx (x : Reg) (s : State) : StepOutcome := (storeBytes s.indexBase (s.window x) s).outcome

/-- `LD Vx, [I]` (R146). -/
def execLdVxMem (x : Reg) (s : State) : StepOutcome := (loadRegs s.indexBase (windowRegs x) s).outcome

end Sys2Proof.Machine
end

