-- ==== Sys2Proof/Machine/TimersInput.lean ====
section
/-! DEFINITION. The timer, random and key instructions (spec/44_timers_random_input.md). None raises an exception or
writes VF as a side effect (R172). -/

namespace Sys2Proof.Machine

/-- `LD Vx, DT` (R161). -/
def execLdVxDT (x : Reg) (s : State) : StepOutcome := .next (s.setV x s.DT)

/-- `LD DT, Vx` (R162). -/
def execLdDTVx (x : Reg) (s : State) : StepOutcome := .next (s.setDT (s.reg x))

/-- The zero to non-zero transition of the sound timer that starts the tone (R163, R164). -/
def startsTone (old new : Byte) : Bool := old == 0x00#8 && new != 0x00#8

/-- `LD ST, Vx` (R163). -/
def execLdSTVx (x : Reg) (s : State) : StepOutcome :=
  .next ((s.setST (s.reg x)).emit (changed (startsTone s.ST (s.reg x)) .toneStart))

/-- `RND Vx, nn` (R165): a fresh free draw, masked. -/
def execRnd (x : Reg) (nn : Byte) (s : State) : StepOutcome := .next (s.useDraw.setV x (s.rand8 &&& nn))

/-- `SKP Vx` (R167). -/
def execSkp (x : Reg) (s : State) : StepOutcome := .next (s.skipIf (s.keyOf x))

/-- `SKNP Vx` (R168). -/
def execSknp (x : Reg) (s : State) : StepOutcome := .next (s.skipIf (!s.keyOf x))

/-- `LD Vx, K` (R169): rewinds `pc` while no key is down, else stores the lowest key that is (R171). -/
def execLdVxK (x : Reg) (s : State) : StepOutcome :=
  match lowestKeyDown s.KEY with
  | none => .next (s.setPc (s.pc - 2))
  | some k => .next (s.setV x (BitVec.ofNat 8 k.val))

end Sys2Proof.Machine
end

