-- ==== Sys2Proof/Machine/Cycle.lean ====
section
/-! DEFINITION. The moves of the agents (spec/00_scope.md R11): the CPU's fetch-decode-execute step (spec/40_cycle.md),
the Timer Unit's tick, the key source, and reset with the program load. -/

namespace Sys2Proof.Machine

/-- Fetch (R91): two bytes at `pc` and `pc + 1`, the address formed without wrap, combined big-endian. -/
def fetch (s : State) : Act Word :=
  (memRead s.pc.toNat s).bind fun b0 s => (memRead (s.pc.toNat + 1) s).bind fun b1 s => .ok (wordOfBytes b0 b1) s

/-- The pc advance (R92), before decode and whatever the word is. -/
def State.advance (s : State) : State := s.setPc (s.pc + 2)

/-- Decode and execute a fetched word (R93, R94): a word outside the map raises `UnknownOpcode` with the word. -/
def execWord (w : Word) (s : State) : StepOutcome :=
  match decodeWord w with
  | .instr i => exec i s
  | .illegal w => .next (s.raiseOpcode w)

/-- One `step` event (R90): a halted core does nothing (R97); a failed fetch ends the step with `pc` not advanced. -/
def cpuStep (s : State) : StepOutcome :=
  match s.fault with
  | some _ => .next s
  | none =>
    match fetch s with
    | .ok w s => execWord w s.advance
    | .halted s => .next s

/-- A countdown by one that rests at zero (spec/44_timers_random_input.md R160, decision D15). -/
def countDown (v : Byte) : Byte := if v = 0x00#8 then v else v - 1

/-- One `tick` event (R160); it comes also while the core is halted. -/
def State.tick (s : State) : State := (s.setDT (countDown s.DT)).setST (countDown s.ST)

/-- `reset` (spec/50_interfaces.md R203): the state of spec/10_state.md R38. What is not the machine's state stays: the
parameter `FONT_BASE`, the free draws already used, the coming moves (log entry 13). -/
def State.resetAll (s : State) : State :=
  { State.reset with fontBase := s.fontBase, draws := s.draws, schedule := s.schedule }

/-- `load(bytes)` (R207): the program's bytes written from 0x200 on; a program of more than 3584 bytes faults at 4096. -/
def loadProgram (program : List Byte) (s : State) : Act Unit := storeBytes Config.progOrigin program s

/-- The boot sequence up to the first step (spec/70_reset_and_hazards.md R252). -/
def State.boot (s : State) (program : List Byte) : State := (loadProgram program s.resetAll).state

/-- One move of one agent. -/
def perform (m : Move) (s : State) : StepOutcome :=
  match m with
  | .cpu => cpuStep s
  | .tick => .next s.tick
  | .key k down => .next (s.setKey k down)
  | .boot program => .next (s.boot program)

/-- Place a word where the next fetch reads it. -/
def State.placeWord (s : State) (a : Nat) (w : Word) : State :=
  { s with
    mem := Memory.write s.fontBase (Memory.write s.fontBase s.mem a (hiByte w)) (a + 1) (loByte w) }

/-- Make the next move a fetch that succeeds: a running core, `pc` at a fetchable address, the CPU's turn. -/
def State.readyToFetch (s : State) : State :=
  { s with
    fault := none
    pc := if s.pc.toNat ≤ 4094 then s.pc else 0x0200#16
    schedule := match s.schedule with
      | [] => []
      | .cpu :: rest => .cpu :: rest
      | .tick :: rest => .cpu :: .tick :: rest
      | .key k down :: rest => .cpu :: .key k down :: rest
      | .boot program :: rest => .cpu :: .boot program :: rest }

end Sys2Proof.Machine
end

