-- ==== Sys2Proof/Machine/Step.lean ====
section
/-! DEFINITION. One step of the machine: the next move of the schedule, or the CPU's when nothing is scheduled
(spec/40_cycle.md R95, R96; log entry 2). -/

namespace Sys2Proof.Machine

/-- One atomic move (R95). The output events of the move before are gone from the ports. -/
def step (s : State) : Host.Outcome State Fault Refusal :=
  match s.schedule with
  | [] => cpuStep s.clearEvents
  | m :: rest => perform m { s.clearEvents with schedule := rest }

/-- The state with an instruction's bits stored where the next step fetches (the host's own entry). -/
def State.withFetchWord (s : State) (nbits w : Nat) : State :=
  s.readyToFetch.placeWord s.readyToFetch.pc.toNat (tableWord nbits w)

end Sys2Proof.Machine
end

