-- ==== Sys2Proof/Machine/Ports.lean ====
section
/-! DEFINITION. What the outside reads between steps: the levels and read ports of spec/50_interfaces.md (R204, R206,
R208, R210), and the spec's own reading of the end of a run (spec/70_reset_and_hazards.md R254). Reading changes
nothing: these are functions of the state. -/

namespace Sys2Proof.Machine

/-- `sound_active = (ST != 0)` (spec/44_timers_random_input.md R164, decision D26). -/
def State.soundActive (s : State) : Bool := s.ST != 0x00#8

/-- The halted indication: `fault != None` (R210). -/
def State.isHalted (s : State) : Bool := s.fault.isSome

/-- The numbers of the `fault` output (spec/60_exceptions.md R226). -/
def faultCode : Option Fault → BitVec 3
  | none => 0
  | some .addressOutOfBounds => 1
  | some .stackUnderflow => 2
  | some .stackOverflow => 3
  | some .unknownOpcode => 4

/-- The renderer's read port (R204). -/
def State.pixelAt (s : State) (x y : Nat) : Bool := FrameBuffer.pixel s.FB x y

/-- The read-only snapshot of R208: registers, `pc`, `I`, timers, memory, `SP` and the live stack entries. -/
structure Snapshot where
  V : RegFile
  pc : Word
  I : Word
  DT : Byte
  ST : Byte
  mem : List Byte
  SP : Nat
  stack : List Word
deriving DecidableEq, Repr

/-- `getState()` (R208): an immutable copy. -/
def State.snapshot (s : State) : Snapshot where
  V := s.V
  pc := s.pc
  I := s.I
  DT := s.DT
  ST := s.ST
  mem := (List.range Config.memSize).map s.byteAt
  SP := s.SP.val
  stack := s.STACK.toList.take s.SP.val

/-- The word that a fetch at `pc` would read, when both bytes exist (R91). -/
def State.wordAtPc (s : State) : Word := wordOfBytes (s.byteAt s.pc.toNat) (s.byteAt (s.pc.toNat + 1))

/-- "The run has ended": `pc = a` and the word at `a` is `JP a` (R254 (c), decision D30). -/
def State.atSelfJump (s : State) : Bool :=
  s.fault.isNone && decide (s.pc.toNat ≤ 4094) && decide (s.wordAtPc.toNat = 0x1000 + s.pc.toNat)

end Sys2Proof.Machine
end

