-- ==== Sys2Proof/Safety.lean ====
section
/-! DEFINITION. The terms in which claims speak of runs: whose turn it is, the invariant of the machine's state, the spec's
own tables of who reads and writes what (spec/10_state.md R22, R23) and of which instruction raises which fault
(spec/60_exceptions.md R221 to R224), and what an observer of the change notifications sees (spec/50_interfaces.md
R209). -/

namespace Sys2Proof.Machine

/-! ## Runs -/

/-- The next move is the CPU's. -/
def State.CpuTurn (s : State) : Prop := s.schedule = [] ∨ ∃ rest, s.schedule = .cpu :: rest

/-- The core runs: it has not halted and the next move is the CPU's. -/
structure State.Running (s : State) : Prop where
  turn : s.CpuTurn
  notHalted : s.fault = none

/-- The state is one that the rules allow: memory in canonical form; "`pc` never exceeds 0x1100" (spec/10_state.md R26);
a live stack entry is an address after a `CALL`, 0x0002..0x1000 (R35); and the information latched with a fault is in the
range of its kind (spec/60_exceptions.md R227). -/
structure State.Inv (s : State) : Prop where
  mem_wf : Memory.wf s.fontBase s.mem
  pc_le : s.pc.toNat ≤ 0x1100
  stack_live : ∀ k : Fin 16, k.val < s.SP.val → 0x0002 ≤ s.STACK[k.val].toNat ∧ s.STACK[k.val].toNat ≤ 0x1000
  info_address : s.fault = some .addressOutOfBounds → 4096 ≤ s.faultInfo.toNat ∧ s.faultInfo.toNat ≤ 0x1000E
  info_opcode : s.fault = some .unknownOpcode → s.faultInfo.toNat < 65536

/-! ## Who reads and writes what -/

/-- The instruction may write `V[r]`: the write lists of R23 and the six flag writers of R22. -/
def writesReg : Instr → Reg → Bool
  | .ldImm x _, r | .addImm x _, r | .ldReg x _, r | .orReg x _, r | .andReg x _, r | .xorReg x _, r => r == x
  | .rnd x _, r | .ldVxDT x, r | .ldVxK x, r => r == x
  | .addReg x _, r | .subReg x _, r | .shrReg x _, r | .subnReg x _, r | .shlReg x _, r => r == x || r == vf
  | .drw _ _ _, r => r == vf
  | .ldVxMem x, r => decide (r ≤ x)
  | .cls, _ | .ret, _ | .sys _, _ | .jp _, _ | .call _, _ | .seImm _ _, _ | .sneImm _ _, _ | .seReg _ _, _ => false
  | .sneReg _ _, _ | .ldI _, _ | .jpV0 _, _ | .skp _, _ | .sknp _, _ | .ldDTVx _, _ | .ldSTVx _, _ => false
  | .addI _, _ | .ldF _, _ | .ldB _, _ | .ldMemVx _, _ => false

/-- The instruction reads `V[r]`: the read lists of R23. -/
def readsReg : Instr → Reg → Bool
  | .seImm x _, r | .sneImm x _, r | .addImm x _, r => r == x
  | .seReg x y, r | .sneReg x y, r | .orReg x y, r | .andReg x y, r | .xorReg x y, r => r == x || r == y
  | .addReg x y, r | .subReg x y, r | .subnReg x y, r | .drw x y _, r => r == x || r == y
  | .ldReg _ y, r | .shrReg _ y, r | .shlReg _ y, r => r == y
  | .skp x, r | .sknp x, r | .ldDTVx x, r | .ldSTVx x, r | .addI x, r | .ldF x, r | .ldB x, r => r == x
  | .jpV0 _, r => r == 0
  | .ldMemVx x, r => decide (r ≤ x)
  | .cls, _ | .ret, _ | .sys _, _ | .jp _, _ | .call _, _ | .ldImm _ _, _ | .ldI _, _ | .rnd _ _, _ => false
  | .ldVxDT _, _ | .ldVxK _, _ | .ldVxMem _, _ => false

/-- The instruction may store to memory: FX33 and FX55 (spec/20_memory.md R61, R66). -/
def storesToMemory : Instr → Bool
  | .ldB _ | .ldMemVx _ => true
  | _ => false

/-- The instruction writes `I`: ANNN, FX1E, FX29 (R28). -/
def writesIndex : Instr → Bool
  | .ldI _ | .addI _ | .ldF _ => true
  | _ => false

/-- The instruction reaches the call stack: CALL and RET (R31). -/
def usesStack : Instr → Bool
  | .call _ | .ret => true
  | _ => false

/-- The instruction changes pixels: CLS and DRW (spec/45_display.md R180). -/
def writesPixels : Instr → Bool
  | .cls | .drw _ _ _ => true
  | _ => false

/-- The instruction reads the keys: EX9E, EXA1, FX0A (R33). -/
def readsKeys : Instr → Bool
  | .skp _ | .sknp _ | .ldVxK _ => true
  | _ => false

/-- The instruction reads or writes a timer: FX07, FX15, FX18 (spec/20_memory.md R67). -/
def usesTimers : Instr → Bool
  | .ldVxDT _ | .ldDTVx _ | .ldSTVx _ => true
  | _ => false

/-- The instruction puts something other than the post-fetch value into `pc`, or may: the list of R25. -/
def movesPc : Instr → Bool
  | .jp _ | .call _ | .ret | .jpV0 _ | .seImm _ _ | .sneImm _ _ | .seReg _ _ | .sneReg _ _ => true
  | .skp _ | .sknp _ | .ldVxK _ => true
  | _ => false

/-- The fault an instruction raises in a state, by the conditions of R221 to R224; `none` where it completes. -/
def faultOf (i : Instr) (s : State) : Option Fault :=
  match i with
  | .ret => if s.SP = 0 then some .stackUnderflow else none
  | .call _ => if s.SP = 16 then some .stackOverflow else none
  | .sys _ => some .unknownOpcode
  | .drw _ _ n => if 1 ≤ n.val ∧ s.I.toNat + n.val - 1 > 4095 then some .addressOutOfBounds else none
  | .ldB _ => if s.I.toNat + 2 > 4095 then some .addressOutOfBounds else none
  | .ldMemVx x | .ldVxMem x => if s.I.toNat + x.val > 4095 then some .addressOutOfBounds else none
  | _ => none

/-! ## The observer of change notifications -/

/-- What the three change notifications speak of (R209). -/
structure View where
  V : RegFile
  pc : Word
  mem : Memory
deriving DecidableEq, Repr

/-- The machine as the notifications see it. -/
def State.view (s : State) : View := ⟨s.V, s.pc, s.mem⟩

/-- The notification reports a value that differs from the one held ("firing only on an actual value change"). -/
def Event.fires (fb : FontBase) (w : View) : Event → Prop
  | .redraw => True
  | .toneStart => True
  | .regChanged x v => w.V[x.val] ≠ v
  | .pcChanged a => w.pc ≠ a
  | .memChanged a v => Memory.read fb w.mem a ≠ v

/-- What an observer holds after a notification. -/
def Event.apply (fb : FontBase) (w : View) : Event → View
  | .redraw => w
  | .toneStart => w
  | .regChanged x v => { w with V := w.V.set x.val v }
  | .pcChanged a => { w with pc := a }
  | .memChanged a v => { w with mem := Memory.write fb w.mem a v }

/-- The events take an observer from one view to another: each fires on a change, and at the end the observer's registers,
`pc` and every byte of memory are the machine's. -/
def Observes (fb : FontBase) : View → List Event → View → Prop
  | w, [], w' => w.V = w'.V ∧ w.pc = w'.pc ∧ ∀ a, Memory.read fb w.mem a = Memory.read fb w'.mem a
  | w, e :: es, w' => e.fires fb w ∧ Observes fb (e.apply fb w) es w'

end Sys2Proof.Machine
end

