-- ==== Sys2Proof/Certificates/Slice0/Obligations.lean ====
section
/-! DEFINITION. The statements for the provers. `evs` in a statement is what the step's output events are extended by; what
those events are is said by NotificationsLetAnObserverFollow, ClsClearsAndRequestsRedraw, DrwDrawsTheSprite and
TimerInstructionsMoveBytes. An equality with an updated record says the whole frame: every field it does not name is as it
was. The information of a stack fault is unspecified (R227) and `draws` there is the model's own counter: both are left open. -/

open Sys2Proof Sys2Proof.Machine

/-! ## Encoding -/

/-- spec/30_encoding.md R74, R75: words written from the patterns decode to their instructions. -/
def Obligations.WordsOfTheMapDecode : Prop :=
  decodeWord 0x00E0#16 = .instr .cls ∧
  decodeWord 0x2ABC#16 = .instr (.call 0xABC#12) ∧
  decodeWord 0x8AB4#16 = .instr (.addReg 0xA 0xB) ∧
  decodeWord 0x8127#16 = .instr (.subnReg 1 2) ∧
  decodeWord 0xA123#16 = .instr (.ldI 0x123#12) ∧
  decodeWord 0xC30F#16 = .instr (.rnd 3 0x0F#8) ∧
  decodeWord 0xD125#16 = .instr (.drw 1 2 5) ∧
  decodeWord 0xE1A1#16 = .instr (.sknp 1) ∧
  decodeWord 0xF407#16 = .instr (.ldVxDT 4) ∧
  decodeWord 0xFE65#16 = .instr (.ldVxMem 0xE) ∧
  decodeWord 0x0123#16 = .instr (.sys 0x123#12) ∧
  decodeWord 0x5121#16 = .illegal 0x5121#16

/-- Decoding the two bytes of a well-formed instruction, whatever follows them, gives it back with every operand. -/
def Obligations.DecodeOfEncodeIsTheInstruction : Prop :=
  ∀ (i : Instr) (rest : List Byte), WellFormed i → decode (encodeBytes i ++ rest) = .instr i rest

/-- Every word that decodes is the encoding of the well-formed instruction it decodes to: no word is an alias. -/
def Obligations.EveryDecodedWordIsItsEncoding : Prop :=
  ∀ (w : Word) (i : Instr), decodeWord w = .instr i → WellFormed i ∧ encode i = w

/-- R76's complete table of illegal words, by the fields `op`, `n`, `nn` (R71): executing one raises `UnknownOpcode` with the
word; every other word is one of the 34 executable instructions. -/
def Obligations.IllegalWordsRaiseUnknownOpcode : Prop :=
  ∀ (w : Word) (s : State),
    let op := w.toNat / 4096
    let n := w.toNat % 16
    let nn := w.toNat % 256
    let illegal := (op = 0x0 ∧ w ≠ 0x00E0#16 ∧ w ≠ 0x00EE#16) ∨ ((op = 0x5 ∨ op = 0x9) ∧ n ≠ 0) ∨
      (op = 0x8 ∧ n ∈ [0x8, 0x9, 0xA, 0xB, 0xC, 0xD, 0xF]) ∨ (op = 0xE ∧ nn ∉ [0x9E, 0xA1]) ∨
      (op = 0xF ∧ nn ∉ [0x07, 0x0A, 0x15, 0x18, 0x1E, 0x29, 0x33, 0x55, 0x65])
    (illegal → execWord w s = .next { s with fault := some .unknownOpcode, faultInfo := w.setWidth 17 }) ∧
    (¬illegal → ∃ i, decodeWord w = .instr i ∧ (∀ nnn, i ≠ .sys nnn) ∧ execWord w s = exec i s)

/-! ## The step -/

/-- spec/40_cycle.md R91: the two fetch reads, their order, the big-endian word, the faults of a fetch. -/
def Obligations.FetchReadsTwoBytesBigEndian : Prop :=
  ∀ s : State, fetch s =
    if s.pc.toNat > 4095 then
      .halted { s with fault := some .addressOutOfBounds, faultInfo := BitVec.ofNat 17 s.pc.toNat }
    else if s.pc.toNat = 4095 then
      .halted { s with fault := some .addressOutOfBounds, faultInfo := 4096#17 }
    else .ok (s.byteAt s.pc.toNat ++ s.byteAt (s.pc.toNat + 1)) s

/-- A step at a word that decodes is `exec` of the instruction, at the state whose `pc` is the post-fetch value (R90, R92,
R94); around it the step only takes the CPU's move off the schedule and starts a new list of events (log entries 2, 10). -/
def Obligations.StepRunsTheDecodedInstruction : Prop :=
  ∀ (s : State) (i : Instr), s.Running → s.pc.toNat ≤ 4094 →
    decodeWord (s.byteAt s.pc.toNat ++ s.byteAt (s.pc.toNat + 1)) = .instr i →
    step s = exec i
      { s with pc := s.pc + 2, schedule := s.schedule.tail, events := [.pcChanged (s.pc + 2)] }

/-- A step at a word outside the map (R93, R224, spec/60_exceptions.md R228 (b)): `pc` is past the word, the word is latched,
nothing else changes. -/
def Obligations.StepAtAnUndecodableWordFaults : Prop :=
  ∀ (s : State) (w : Word), s.Running → s.pc.toNat ≤ 4094 →
    decodeWord (s.byteAt s.pc.toNat ++ s.byteAt (s.pc.toNat + 1)) = .illegal w →
    step s = .next
      { s with
        pc := s.pc + 2, schedule := s.schedule.tail, events := [.pcChanged (s.pc + 2)]
        fault := some .unknownOpcode
        faultInfo := (s.byteAt s.pc.toNat ++ s.byteAt (s.pc.toNat + 1)).setWidth 17 }

/-- A failed fetch comes before everything else and leaves `pc` unadvanced (R91, R228 (a), R229). -/
def Obligations.FailedFetchLeavesPcUnadvanced : Prop :=
  ∀ s : State, s.Running → 4094 < s.pc.toNat →
    step s = .next
      { s with
        schedule := s.schedule.tail, events := []
        fault := some .addressOutOfBounds, faultInfo := BitVec.ofNat 17 (max s.pc.toNat 4096) }

/-- spec/40_cycle.md R97: a `step` event on a halted core changes nothing and emits nothing. -/
def Obligations.HaltedCoreIgnoresSteps : Prop :=
  ∀ s : State, s.CpuTurn → s.fault ≠ none → step s = .next { s with schedule := s.schedule.tail, events := [] }

/-- Every step of every agent from every state answers a next state: the fatal errors too are next states (R225). -/
def Obligations.EveryStepAnswersANextState : Prop := ∀ s : State, ∃ t, step s = .next t

/-- A halted core keeps its fault, and no move but a reset changes its registers, stack, pixels or memory (R97, R231). -/
def Obligations.OnlyAResetLeavesTheHaltedState : Prop :=
  ∀ s t : State, s.fault ≠ none → step s = .next t → (∀ program rest, s.schedule ≠ .boot program :: rest) →
    t.fault = s.fault ∧ t.faultInfo = s.faultInfo ∧ t.V = s.V ∧ t.I = s.I ∧ t.pc = s.pc ∧ t.SP = s.SP ∧
    t.STACK = s.STACK ∧ t.FB = s.FB ∧ t.mem = s.mem

/-- spec/20_memory.md R65: a store over the next instruction is what the next step executes, high byte first (R57). -/
def Obligations.StoredWordIsWhatTheNextStepExecutes : Prop :=
  ∀ (s : State) (hi lo : Byte), Memory.wf s.fontBase s.mem → s.Running → s.pc.toNat ≤ 4094 →
    ∃ t, storeBytes s.pc.toNat [hi, lo] s = .ok () t ∧
      step t = execWord (hi ++ lo)
        { t with pc := t.pc + 2, schedule := t.schedule.tail, events := [.pcChanged (t.pc + 2)] }

/-! ## Memory and stack operations -/

/-- spec/20_memory.md R51, R52: an access above 4095 raises and leaves memory alone; a read is the byte and changes nothing; a
byte written is what that address reads as from then on, and no other address changes. -/
def Obligations.AccessesAreBoundedAndReadAfterWrite : Prop :=
  ∀ (addr : Nat) (v : Byte) (s : State), Memory.wf s.fontBase s.mem →
    (addr > 4095 →
      memRead addr s = .halted { s with fault := some .addressOutOfBounds, faultInfo := BitVec.ofNat 17 addr } ∧
      memWrite addr v s = .halted { s with fault := some .addressOutOfBounds, faultInfo := BitVec.ofNat 17 addr }) ∧
    (addr ≤ 4095 → memRead addr s = .ok (s.byteAt addr) s ∧
      ∃ t, memWrite addr v s = .ok () t ∧ t = { s with mem := t.mem, events := t.events } ∧
        memRead addr t = .ok v t ∧ ∀ a, a ≠ addr → t.byteAt a = s.byteAt a)

/-- spec/20_memory.md R55: every depth is below 16 or is 16. -/
def Obligations.PushStoresAtTheDepth : Prop :=
  ∀ (a : Word) (s : State),
    (∀ d : Fin 16, s.SP = d.castSucc → push a s = .ok () { s with STACK := s.STACK.set d.val a, SP := d.succ }) ∧
    (s.SP = 16 → ∃ info n, push a s =
      .halted { s with fault := some .stackOverflow, faultInfo := info, draws := n })

/-- spec/20_memory.md R56, with its example: pushing A, then B, and popping twice gives B, then A. -/
def Obligations.PopTakesTheLastPushed : Prop :=
  (∀ (s : State) (d : Fin 16), s.SP = d.succ → pop s = .ok s.STACK[d.val] { s with SP := d.castSucc }) ∧
  (∀ s : State, s.SP = 0 → ∃ info n, pop s =
    .halted { s with fault := some .stackUnderflow, faultInfo := info, draws := n }) ∧
  (∀ (a b : Word) (s : State), s.SP.val ≤ 14 → ∃ t,
    ((push a s).bind fun _ s => (push b s).bind fun _ s => (pop s).bind fun p s => (pop s).bind fun q s =>
      .ok (p, q) s) = .ok (b, a) t ∧ t.SP = s.SP)

/-! ## Control flow (spec/41_control_flow.md) -/

/-- R101: `RET` completes with the popped address; with an empty stack it raises `StackUnderflow`. -/
def Obligations.RetReturnsToThePoppedAddress : Prop :=
  decodeWord 0x00EE#16 = .instr .ret ∧
  (∀ (s : State) (d : Fin 16), s.SP = d.succ → ∃ evs,
    exec .ret s = .next { s with pc := s.STACK[d.val], SP := d.castSucc, events := s.events ++ evs }) ∧
  (∀ s : State, s.SP = 0 → ∃ info n,
    exec .ret s = .next { s with fault := some .stackUnderflow, faultInfo := info, draws := n })

/-- R102: the literal target, with no extra increment. -/
def Obligations.JpSetsPcToItsTarget : Prop :=
  ∀ (nnn : Addr12) (s : State),
    decodeWord (BitVec.ofNat 16 (0x1000 + nnn.toNat)) = .instr (.jp nnn) ∧
    ∃ evs, exec (.jp nnn) s = .next { s with pc := BitVec.ofNat 16 nnn.toNat, events := s.events ++ evs }

/-- R103: the post-fetch `pc` is pushed; with a full stack `StackOverflow` is raised and nothing is pushed. -/
def Obligations.CallPushesThePostFetchPc : Prop :=
  ∀ (nnn : Addr12) (s : State),
    decodeWord (BitVec.ofNat 16 (0x2000 + nnn.toNat)) = .instr (.call nnn) ∧
    (∀ d : Fin 16, s.SP = d.castSucc → ∃ evs, exec (.call nnn) s = .next
      { s with
        STACK := s.STACK.set d.val s.pc, SP := d.succ, pc := BitVec.ofNat 16 nnn.toNat
        events := s.events ++ evs }) ∧
    (s.SP = 16 → ∃ info n, exec (.call nnn) s = .next
      { s with fault := some .stackOverflow, faultInfo := info, draws := n })

/-- A `CALL` and then, whatever `pc` is by then, a `RET`: back at the instruction after the call, at the same depth (R103,
R101, R110). -/
def Obligations.RetUndoesCall : Prop :=
  ∀ (nnn : Addr12) (s t : State) (p : Word), s.SP.val < 16 → exec (.call nnn) s = .next t →
    ∃ u, exec .ret { t with pc := p } = .next u ∧ u.pc = s.pc ∧ u.SP = s.SP ∧ u.fault = s.fault

/-- R104 to R107 with R98: the four register skips. -/
def Obligations.SkipsCompareAndSkip : Prop :=
  ∀ (x y : Reg) (nn : Byte) (s : State),
    (∃ evs, exec (.seImm x nn) s = .next
      { s with pc := if s.V[x.val] = nn then s.pc + 2 else s.pc, events := s.events ++ evs }) ∧
    (∃ evs, exec (.sneImm x nn) s = .next
      { s with pc := if s.V[x.val] ≠ nn then s.pc + 2 else s.pc, events := s.events ++ evs }) ∧
    (∃ evs, exec (.seReg x y) s = .next
      { s with pc := if s.V[x.val] = s.V[y.val] then s.pc + 2 else s.pc, events := s.events ++ evs }) ∧
    (∃ evs, exec (.sneReg x y) s = .next
      { s with pc := if s.V[x.val] ≠ s.V[y.val] then s.pc + 2 else s.pc, events := s.events ++ evs })

/-- R108: `V[0]` is the offset and the sum is not reduced to 12 bits (decision D2). -/
def Obligations.JpV0AddsRegisterZero : Prop :=
  ∀ (nnn : Addr12) (s : State), ∃ evs t,
    exec (.jpV0 nnn) s = .next t ∧ t = { s with pc := t.pc, events := s.events ++ evs } ∧
    t.pc.toNat = nnn.toNat + s.V[0].toNat

/-- R109, R77: `SYS nnn` raises `UnknownOpcode` with its own word, and that is its whole effect (decision D3). -/
def Obligations.SysRaisesUnknownOpcode : Prop :=
  ∀ (nnn : Addr12) (s : State), exec (.sys nnn) s = .next
    { s with fault := some .unknownOpcode, faultInfo := BitVec.ofNat 17 nnn.toNat }

/-! ## Arithmetic and logic (spec/42_arith_logic.md) -/

/-- R121, R123: the two loads of a register; VF changes only where it is the destination. -/
def Obligations.LoadsCopyTheirSource : Prop :=
  ∀ (x y : Reg) (nn : Byte) (s : State),
    decodeWord (BitVec.ofNat 16 (0x6000 + x.val * 256 + nn.toNat)) = .instr (.ldImm x nn) ∧
    decodeWord (BitVec.ofNat 16 (0x8000 + x.val * 256 + y.val * 16)) = .instr (.ldReg x y) ∧
    (∃ evs, exec (.ldImm x nn) s = .next { s with V := s.V.set x.val nn, events := s.events ++ evs }) ∧
    (∃ evs, exec (.ldReg x y) s = .next { s with V := s.V.set x.val s.V[y.val], events := s.events ++ evs })

/-- R122: modulo 256, VF not written as a flag (decision D12). -/
def Obligations.AddImmediateWraps : Prop :=
  ∀ (x : Reg) (nn : Byte) (s : State), ∃ evs, exec (.addImm x nn) s = .next
    { s with
      V := s.V.set x.val (BitVec.ofNat 8 ((s.V[x.val].toNat + nn.toNat) % 256)), events := s.events ++ evs }

/-- R124 to R126, bit by bit; VF is not written as a flag (decision D12). -/
def Obligations.LogicIsBitByBit : Prop :=
  ∀ (x y : Reg) (s : State), ∃ r1 r2 r3 e1 e2 e3,
    exec (.orReg x y) s = .next { s with V := s.V.set x.val r1, events := s.events ++ e1 } ∧
    exec (.andReg x y) s = .next { s with V := s.V.set x.val r2, events := s.events ++ e2 } ∧
    exec (.xorReg x y) s = .next { s with V := s.V.set x.val r3, events := s.events ++ e3 } ∧
    ∀ k < 8, r1.getLsbD k = (s.V[x.val].getLsbD k || s.V[y.val].getLsbD k) ∧
      r2.getLsbD k = (s.V[x.val].getLsbD k && s.V[y.val].getLsbD k) ∧
      r3.getLsbD k = (s.V[x.val].getLsbD k ^^ s.V[y.val].getLsbD k)

/-- R127 with R120 and spec/40_cycle.md R99: VF = carry out, written before the sum, from operands read first. Reading the
operands first, and with it the cases `x` or `y` = 15, is the spec's decision D13 (log entry 16). -/
def Obligations.AddSetsCarryThenSum : Prop :=
  ∀ (x y : Reg) (s : State),
    decodeWord (BitVec.ofNat 16 (0x8004 + x.val * 256 + y.val * 16)) = .instr (.addReg x y) ∧
    ∃ evs, exec (.addReg x y) s = .next
      { s with
        V := (s.V.set 15 (if s.V[x.val].toNat + s.V[y.val].toNat > 255 then 1#8 else 0#8)).set x.val
          (BitVec.ofNat 8 ((s.V[x.val].toNat + s.V[y.val].toNat) % 256))
        events := s.events ++ evs }

/-- R128, R130 with R120: VF = no borrow, written before the difference (the order, and the cases `x` or `y` = 15: decision D13;
equal operands: decision D14; log entry 16). -/
def Obligations.SubtractionsSetNoBorrowThenDifference : Prop :=
  ∀ (x y : Reg) (s : State),
    (∃ evs, exec (.subReg x y) s = .next
      { s with
        V := (s.V.set 15 (if s.V[x.val].toNat ≥ s.V[y.val].toNat then 1#8 else 0#8)).set x.val
          (BitVec.ofNat 8 ((256 + s.V[x.val].toNat - s.V[y.val].toNat) % 256))
        events := s.events ++ evs }) ∧
    (∃ evs, exec (.subnReg x y) s = .next
      { s with
        V := (s.V.set 15 (if s.V[y.val].toNat ≥ s.V[x.val].toNat then 1#8 else 0#8)).set x.val
          (BitVec.ofNat 8 ((256 + s.V[y.val].toNat - s.V[x.val].toNat) % 256))
        events := s.events ++ evs })

/-- R129, R131 with R120: copy-then-shift; VF = the bit shifted out of `V[y]`, written before the result. That order, and with
it the cases `x` or `y` = 15, is the spec's decision D13 (log entry 16). -/
def Obligations.ShiftsCopyThenShift : Prop :=
  ∀ (x y : Reg) (s : State),
    decodeWord (BitVec.ofNat 16 (0x8006 + x.val * 256 + y.val * 16)) = .instr (.shrReg x y) ∧
    decodeWord (BitVec.ofNat 16 (0x800E + x.val * 256 + y.val * 16)) = .instr (.shlReg x y) ∧
    (∃ evs, exec (.shrReg x y) s = .next
      { s with
        V := (s.V.set 15 (BitVec.ofNat 8 (s.V[y.val].toNat % 2))).set x.val (BitVec.ofNat 8 (s.V[y.val].toNat / 2))
        events := s.events ++ evs }) ∧
    (∃ evs, exec (.shlReg x y) s = .next
      { s with
        V := (s.V.set 15 (BitVec.ofNat 8 (s.V[y.val].toNat / 128))).set x.val
          (BitVec.ofNat 8 (s.V[y.val].toNat * 2 % 256))
        events := s.events ++ evs })

/-! ## Index register and memory (spec/43_index_memory.md) -/

/-- R141. -/
def Obligations.LdIndexLoads : Prop :=
  ∀ (nnn : Addr12) (s : State),
    decodeWord (BitVec.ofNat 16 (0xA000 + nnn.toNat)) = .instr (.ldI nnn) ∧
    exec (.ldI nnn) s = .next { s with I := BitVec.ofNat 16 nnn.toNat }

/-- R142: modulo 65536, no flag (decision D8). -/
def Obligations.AddIndexWrapsAt16Bits : Prop :=
  ∀ (x : Reg) (s : State), exec (.addI x) s = .next
    { s with I := BitVec.ofNat 16 ((s.I.toNat + s.V[x.val].toNat) % 65536) }

/-- R143: for every `FONT_BASE`; the low nibble is the digit (decision D19). -/
def Obligations.LdFontFindsTheGlyph : Prop :=
  ∀ (x : Reg) (s : State), ∃ t, exec (.ldF x) s = .next t ∧ t = { s with I := t.I } ∧
    t.I.toNat = s.fontBase.val + 5 * (s.V[x.val].toNat % 16)

/-- R144: hundreds, tens and ones at `I`, `I+1`, `I+2`, every other byte as before. -/
def Obligations.LdBcdStoresThreeDigits : Prop :=
  ∀ (x : Reg) (s : State), Memory.wf s.fontBase s.mem → s.I.toNat + 2 ≤ 4095 →
    ∃ t, exec (.ldB x) s = .next t ∧ t = { s with mem := t.mem, events := t.events } ∧
      (t.byteAt s.I.toNat).toNat = s.V[x.val].toNat / 100 ∧
      (t.byteAt (s.I.toNat + 1)).toNat = s.V[x.val].toNat / 10 % 10 ∧
      (t.byteAt (s.I.toNat + 2)).toNat = s.V[x.val].toNat % 10 ∧
      ∀ a, a < s.I.toNat ∨ s.I.toNat + 2 < a → t.byteAt a = s.byteAt a

/-- R145: `V[0]` to `V[x]` at `I` to `I+x`, every other byte as before. -/
def Obligations.StoreWindowStoresRegisters : Prop :=
  ∀ (x : Reg) (s : State), Memory.wf s.fontBase s.mem → s.I.toNat + x.val ≤ 4095 →
    ∃ t, exec (.ldMemVx x) s = .next t ∧ t = { s with mem := t.mem, events := t.events } ∧
      (∀ k : Reg, k ≤ x → t.byteAt (s.I.toNat + k.val) = s.V[k.val]) ∧
      ∀ a, a < s.I.toNat ∨ s.I.toNat + x.val < a → t.byteAt a = s.byteAt a

/-- R146: `V[0]` to `V[x]` from `I` to `I+x`, the other registers and all of memory as before. -/
def Obligations.LoadWindowLoadsRegisters : Prop :=
  ∀ (x : Reg) (s : State), s.I.toNat + x.val ≤ 4095 →
    ∃ t, exec (.ldVxMem x) s = .next t ∧ t = { s with V := t.V, events := t.events } ∧
      ∀ k : Reg, t.V[k.val] = if k ≤ x then s.byteAt (s.I.toNat + k.val) else s.V[k.val]

/-- R144, R145 with spec/60_exceptions.md R228 (c), R229: a store that runs out of memory halts at the lowest missing
address, the bytes below it stored; `pc` and everything else as before. -/
def Obligations.StoresBeforeAnAddressFaultStay : Prop :=
  ∀ (x : Reg) (s : State), Memory.wf s.fontBase s.mem →
    (4095 < s.I.toNat + 2 → ∃ t, exec (.ldB x) s = .next t ∧
      t = { s with
        mem := t.mem, events := t.events, fault := some .addressOutOfBounds
        faultInfo := BitVec.ofNat 17 (max s.I.toNat 4096) } ∧
      (s.I.toNat ≤ 4095 → (t.byteAt s.I.toNat).toNat = s.V[x.val].toNat / 100) ∧
      (s.I.toNat + 1 ≤ 4095 → (t.byteAt (s.I.toNat + 1)).toNat = s.V[x.val].toNat / 10 % 10) ∧
      ∀ a, a < s.I.toNat ∨ 4095 < a → t.byteAt a = s.byteAt a) ∧
    (4095 < s.I.toNat + x.val → ∃ t, exec (.ldMemVx x) s = .next t ∧
      t = { s with
        mem := t.mem, events := t.events, fault := some .addressOutOfBounds
        faultInfo := BitVec.ofNat 17 (max s.I.toNat 4096) } ∧
      (∀ k : Reg, s.I.toNat + k.val ≤ 4095 → t.byteAt (s.I.toNat + k.val) = s.V[k.val]) ∧
      ∀ a, a < s.I.toNat ∨ 4095 < a → t.byteAt a = s.byteAt a)

/-- R146 with R228 (c), R229: the registers below the lowest missing address are loaded, the rest are as before. -/
def Obligations.LoadsBeforeAnAddressFaultStay : Prop :=
  ∀ (x : Reg) (s : State), 4095 < s.I.toNat + x.val → ∃ t, exec (.ldVxMem x) s = .next t ∧
    t = { s with
      V := t.V, events := t.events, fault := some .addressOutOfBounds
      faultInfo := BitVec.ofNat 17 (max s.I.toNat 4096) } ∧
    ∀ k : Reg, t.V[k.val] = if s.I.toNat + k.val ≤ 4095 then s.byteAt (s.I.toNat + k.val) else s.V[k.val]

/-! ## Timers, random and keys (spec/44_timers_random_input.md) -/

/-- R160: a tick lowers each timer that is not zero and touches nothing else, halted or not. -/
def Obligations.TickCountsDownToZero : Prop :=
  ∀ (s : State) (rest : List Move), s.schedule = .tick :: rest → ∃ t, step s = .next t ∧
    t = { s with DT := t.DT, ST := t.ST, schedule := rest, events := [] } ∧
    t.DT.toNat = s.DT.toNat - 1 ∧ t.ST.toNat = s.ST.toNat - 1

/-- R161 to R163: the three timer instructions; `tone_start` exactly on the transition of `ST` from zero to non-zero. -/
def Obligations.TimerInstructionsMoveBytes : Prop :=
  ∀ (x : Reg) (s : State),
    decodeWord (BitVec.ofNat 16 (0xF007 + x.val * 256)) = .instr (.ldVxDT x) ∧
    decodeWord (BitVec.ofNat 16 (0xF015 + x.val * 256)) = .instr (.ldDTVx x) ∧
    decodeWord (BitVec.ofNat 16 (0xF018 + x.val * 256)) = .instr (.ldSTVx x) ∧
    (∃ evs, exec (.ldVxDT x) s = .next { s with V := s.V.set x.val s.DT, events := s.events ++ evs }) ∧
    exec (.ldDTVx x) s = .next { s with DT := s.V[x.val] } ∧
    exec (.ldSTVx x) s = .next
      { s with
        ST := s.V[x.val]
        events := s.events ++ (if s.ST = 0#8 ∧ s.V[x.val] ≠ 0#8 then [.toneStart] else []) }

/-- R165, R166: the draw is the free value `Config.rand8` at the counter, whatever it is (log entry 3); bits outside the mask
are 0. -/
def Obligations.RndMasksAFreeDraw : Prop :=
  ∀ (x : Reg) (nn : Byte) (s : State), ∃ evs,
    exec (.rnd x nn) s = .next
      { s with
        V := s.V.set x.val (Config.rand8 s.draws &&& nn), draws := s.draws + 1, events := s.events ++ evs } ∧
    (Config.rand8 s.draws &&& nn) &&& ~~~nn = 0#8

/-- R167, R168: the key is the low nibble of `V[x]` (decision D19). -/
def Obligations.KeySkipsSampleOneKey : Prop :=
  ∀ (x : Reg) (s : State) (k : Key), k.val = s.V[x.val].toNat % 16 →
    (∃ evs, exec (.skp x) s = .next
      { s with pc := if s.KEY[k.val] = true then s.pc + 2 else s.pc, events := s.events ++ evs }) ∧
    (∃ evs, exec (.sknp x) s = .next
      { s with pc := if s.KEY[k.val] = false then s.pc + 2 else s.pc, events := s.events ++ evs })

/-- R169, R171: with no key down `pc` is rewound by 2 and nothing else changes; otherwise the lowest key that is down is stored
(decision D18). -/
def Obligations.KeyWaitRewindsOrStoresTheLowestKey : Prop :=
  ∀ (x : Reg) (s : State),
    ((∀ k : Key, s.KEY[k.val] = false) → ∃ evs,
      exec (.ldVxK x) s = .next { s with pc := s.pc - 2, events := s.events ++ evs }) ∧
    (∀ k : Key, s.KEY[k.val] = true → (∀ j : Key, j < k → s.KEY[j.val] = false) → ∃ evs,
      exec (.ldVxK x) s = .next { s with V := s.V.set x.val (BitVec.ofNat 8 k.val), events := s.events ++ evs })

/-- R169 over whole steps: any number of CPU steps at an `FX0A` with no key down leaves the machine exactly where it was. -/
def Obligations.KeyWaitHoldsThePc : Prop :=
  ∀ (x : Reg) (s : State) (n : Nat), s.schedule = [] → s.fault = none → s.pc.toNat ≤ 4094 →
    s.byteAt s.pc.toNat ++ s.byteAt (s.pc.toNat + 1) = BitVec.ofNat 16 (0xF00A + x.val * 256) →
    (∀ k : Key, s.KEY[k.val] = false) →
    ∃ evs, Host.Core.run Sys2Proof.core n s = .next { s with events := evs }

/-- spec/70_reset_and_hazards.md R254 (c): a jump to itself is a fixed point of any number of CPU steps. -/
def Obligations.SelfJumpIsAFixedPoint : Prop :=
  ∀ (s : State) (n : Nat), s.schedule = [] → s.atSelfJump = true →
    ∃ evs, Host.Core.run Sys2Proof.core n s = .next { s with events := evs }

/-! ## Display (spec/45_display.md) -/

/-- R184, R181, R186. -/
def Obligations.ClsClearsAndRequestsRedraw : Prop :=
  decodeWord 0x00E0#16 = .instr .cls ∧
  ∀ s : State, ∃ t, exec .cls s = .next t ∧ t = { s with FB := t.FB, events := s.events ++ [.redraw] } ∧
    ∀ (x y : Nat) (hx : x < 64) (hy : y < 32), t.FB[y][x] = false

/-- R185 with R182, R183, R186: every sprite bit is XORed into its wrapped pixel, every other pixel is as before, VF is the
collision bit, and `redraw` is the last event. -/
def Obligations.DrwDrawsTheSprite : Prop :=
  ∀ (x y : Reg) (n : Fin 16) (s : State), n = 0 ∨ s.I.toNat + n.val ≤ 4096 →
    let bit := fun i b => (s.byteAt (s.I.toNat + i)).getLsbD (7 - b)
    let col := fun b => (s.V[x.val].toNat + b) % 64
    let row := fun i => (s.V[y.val].toNat + i) % 32
    ∃ t evs, exec (.drw x y n) s = .next t ∧
      t = { s with FB := t.FB, V := t.V, events := s.events ++ evs ++ [.redraw] } ∧
      (∀ i < n.val, ∀ b < 8, t.pixelAt (col b) (row i) = (s.pixelAt (col b) (row i) ^^ bit i b)) ∧
      (∀ px < 64, ∀ py < 32, (∀ i < n.val, ∀ b < 8, col b ≠ px ∨ row i ≠ py) → t.pixelAt px py = s.pixelAt px py) ∧
      (∀ q : Reg, q ≠ 15 → t.V[q.val] = s.V[q.val]) ∧
      ((∃ i < n.val, ∃ b < 8, bit i b = true ∧ s.pixelAt (col b) (row i) = true) → t.V[15] = 1#8) ∧
      ((¬∃ i < n.val, ∃ b < 8, bit i b = true ∧ s.pixelAt (col b) (row i) = true) → t.V[15] = 0#8)

/-- R185, R228 (c): a sprite that runs out of memory faults before any pixel or VF is touched, with no `redraw`. -/
def Obligations.DrwFaultTouchesNoPixel : Prop :=
  ∀ (x y : Reg) (n : Fin 16) (s : State), n ≠ 0 → 4096 < s.I.toNat + n.val →
    exec (.drw x y n) s = .next
      { s with fault := some .addressOutOfBounds, faultInfo := BitVec.ofNat 17 (max s.I.toNat 4096) }

/-- R187: drawing a sprite of at most 15 rows twice at one place restores the buffer exactly, and the second draw collides
exactly if some on-bit of it had landed on an off pixel. -/
def Obligations.DrawingTwiceRestores : Prop :=
  ∀ (fb : FrameBuffer) (x0 y0 : Nat) (rows : List Byte), rows.length ≤ 15 →
    (FrameBuffer.draw (FrameBuffer.draw fb x0 y0 rows).1 x0 y0 rows).1 = fb ∧
    ((FrameBuffer.draw (FrameBuffer.draw fb x0 y0 rows).1 x0 y0 rows).2 = true ↔
      ∃ i, ∃ h : i < rows.length, ∃ b < 8, rows[i].getLsbD (7 - b) = true ∧
        FrameBuffer.pixel fb (x0 + b) (y0 + i) = false)

/-! ## Reset, boot and the key source -/

/-- spec/10_state.md R38: the rows the spec gives a value (`DT`, `ST`, `FB`, the other memory, `KEY`: decision D22; the latch:
D23; the default `FONT_BASE`: D5; the glyph bytes: D6). `STACK` and `fault_info` are unspecified there and not mentioned. -/
def Obligations.ResetLeavesTheStatedValues : Prop :=
  let s := State.reset
  (∀ k : Reg, s.V[k.val] = 0#8) ∧ s.I = 0#16 ∧ s.pc = 0x0200#16 ∧ s.SP = 0 ∧ s.DT = 0#8 ∧ s.ST = 0#8 ∧
  (∀ (x y : Nat) (_ : x < 64) (_ : y < 32), s.FB[y][x] = false) ∧ (∀ k : Key, s.KEY[k.val] = false) ∧ s.fault = none ∧
  s.fontBase.val = 0x050 ∧
  (∀ a, a < 0x050 ∨ 0x0A0 ≤ a → s.byteAt a = 0x00#8) ∧
  (List.range 40).map (fun j => s.byteAt (0x050 + j)) =
    [0xF0, 0x90, 0x90, 0x90, 0xF0, 0x20, 0x60, 0x20, 0x20, 0x70, 0xF0, 0x10, 0xF0, 0x80, 0xF0, 0xF0, 0x10, 0xF0, 0x10, 0xF0,
     0x90, 0x90, 0xF0, 0x10, 0x10, 0xF0, 0x80, 0xF0, 0x10, 0xF0, 0xF0, 0x80, 0xF0, 0x90, 0xF0, 0xF0, 0x10, 0x20, 0x40, 0x40] ∧
  (List.range 40).map (fun j => s.byteAt (0x078 + j)) =
    [0xF0, 0x90, 0xF0, 0x90, 0xF0, 0xF0, 0x90, 0xF0, 0x10, 0xF0, 0xF0, 0x90, 0xF0, 0x90, 0x90, 0xE0, 0x90, 0xE0, 0x90, 0xE0,
     0xF0, 0x80, 0x80, 0x80, 0xF0, 0xE0, 0x90, 0x90, 0x90, 0xE0, 0xF0, 0x80, 0xF0, 0x80, 0xF0, 0xF0, 0x80, 0xF0, 0x80, 0x80]

/-- R250, spec/50_interfaces.md R207, spec/70_reset_and_hazards.md R252: a boot resets every register and loads the program
verbatim at 0x200, all other memory as reset leaves it, for every `FONT_BASE`; a program longer than 3584 bytes faults at
4096 with its first 3584 bytes written (decision D24, log entry 14). R38 leaves `STACK` unspecified: that a boot gives its
entries the value they have in `State.reset` is the model's choice (log entry 6), no rule of the spec; what a boot keeps of
the model's own fields is log entry 13. -/
def Obligations.BootResetsAndLoads : Prop :=
  ∀ (s : State) (program : List Byte) (rest : List Move), s.schedule = .boot program :: rest →
    ∃ t, step s = .next t ∧
      t = { State.reset with
        mem := t.mem, events := t.events, fault := t.fault, faultInfo := t.faultInfo
        fontBase := s.fontBase, draws := s.draws, schedule := rest } ∧
      (program.length ≤ 3584 → t.fault = none) ∧
      (3584 < program.length → t.fault = some .addressOutOfBounds ∧ t.faultInfo = 4096#17) ∧
      (∀ (j : Nat) (h : j < program.length), j < 3584 → t.byteAt (0x200 + j) = program[j]) ∧
      ∀ a, a < 0x200 ∨ 0x200 + program.length ≤ a ∨ 4095 < a → t.byteAt a = resetByte s.fontBase a

/-- spec/50_interfaces.md R205: the key source changes one flag and nothing else. -/
def Obligations.KeySourceChangesOneFlag : Prop :=
  ∀ (s : State) (k : Key) (down : Bool) (rest : List Move), s.schedule = .key k down :: rest →
    ∃ t, step s = .next t ∧ t = { s with KEY := t.KEY, schedule := rest, events := [] } ∧
      t.KEY[k.val] = down ∧ ∀ j : Key, j ≠ k → t.KEY[j.val] = s.KEY[j.val]

/-! ## Invariants -/

/-- The reset state meets the invariant. -/
def Obligations.ResetMeetsTheInvariant : Prop := State.reset.Inv

/-- Every move of every agent keeps the invariant: memory stays canonical, `pc` stays at most 0x1100 (R26), live stack entries
stay return addresses (R35), the fault information stays in its range (R227). -/
def Obligations.EveryStepKeepsTheInvariant : Prop := ∀ s t : State, s.Inv → step s = .next t → t.Inv

/-! ## Whole-machine rules -/

/-- Every instruction completes with the fault latch as it was, or raises exactly the fault R221 to R224 name, under exactly
their conditions. -/
def Obligations.InstructionsFaultExactlyAsListed : Prop :=
  ∀ (i : Instr) (s : State), s.fault = none → ∃ t, exec i s = .next t ∧ t.fault = faultOf i s

/-- R23, R22: a register that R23 does not list as written by the instruction keeps its value. -/
def Obligations.RegistersNotListedAreNotWritten : Prop :=
  ∀ (i : Instr) (s t : State) (r : Reg), exec i s = .next t → writesReg i r = false → t.V[r.val] = s.V[r.val]

/-- R23: the value of a register that R23 does not list as read by the instruction influences nothing but itself. -/
def Obligations.RegistersNotListedAreNotRead : Prop :=
  ∀ (i : Instr) (s t : State) (r : Reg) (v : Byte), exec i s = .next t → readsReg i r = false →
    ∃ u, exec i { s with V := s.V.set r.val v } = .next u ∧ u = { t with V := u.V, events := u.events } ∧
      ∀ q : Reg, q ≠ r → u.V[q.val] = t.V[q.val]

/-- R28, R31, R33, spec/45_display.md R180, R67: outside its own instructions no special register, stack entry, timer, pixel
or key flag changes, and no instruction changes a key flag. -/
def Obligations.SpecialStateChangesOnlyByItsInstructions : Prop :=
  ∀ (i : Instr) (s t : State), exec i s = .next t →
    (writesIndex i = false → t.I = s.I) ∧ (usesStack i = false → t.SP = s.SP ∧ t.STACK = s.STACK) ∧
    (usesTimers i = false → t.DT = s.DT ∧ t.ST = s.ST) ∧ (writesPixels i = false → t.FB = s.FB) ∧
    (movesPc i = false → t.pc = s.pc) ∧ t.KEY = s.KEY ∧ t.fontBase = s.fontBase ∧ t.schedule = s.schedule

/-- spec/20_memory.md R61, R66: every instruction but `LD B,Vx` and `LD [I],Vx` leaves every byte of memory as it was. -/
def Obligations.OnlyTwoInstructionsStore : Prop :=
  ∀ (i : Instr) (s t : State), exec i s = .next t → storesToMemory i = false → ∀ a, t.byteAt a = s.byteAt a

/-- R33, spec/60_exceptions.md R230: the keys reach the program only through the three instructions that read them. -/
def Obligations.KeysReachOnlyKeyInstructions : Prop :=
  ∀ (i : Instr) (s t : State) (keys : KeyState), exec i s = .next t → readsKeys i = false →
    exec i { s with KEY := keys } = .next { t with KEY := keys }

/-- R230, spec/40_cycle.md R96: a tick before or after an instruction that does not name a timer gives the same state. -/
def Obligations.TicksCommuteWithOtherInstructions : Prop :=
  ∀ (i : Instr) (s t : State), exec i s = .next t → usesTimers i = false → exec i s.tick = .next t.tick

/-- spec/50_interfaces.md R209: an observer who applies the notifications in order, each of which reports a change, ends with
the machine's registers, `pc` and memory. -/
def Obligations.NotificationsLetAnObserverFollow : Prop :=
  ∀ (i : Instr) (s t : State), Memory.wf s.fontBase s.mem → exec i s = .next t →
    ∃ evs, t.events = s.events ++ evs ∧ Observes s.fontBase s.view evs t.view
end

