-- ==== Sys2Proof/Laws/Decode.lean ====
section
/-! SUPPORT. The fields of a word written in each format (spec/30_encoding.md R71, R72), and the bytes of a word (R57). -/

namespace Sys2Proof

/-! ## Words and bytes -/

theorem toNat_word {k : Nat} (h : k < 65536) : (BitVec.ofNat 16 k).toNat = k := by
  rw [BitVec.toNat_ofNat]; omega

theorem wordOfBytes_toNat (hi lo : Byte) : (wordOfBytes hi lo).toNat = hi.toNat * 256 + lo.toNat := by
  have hlo := lo.isLt
  have h : (wordOfBytes hi lo).toNat = hi.toNat <<< 8 ||| lo.toNat := BitVec.toNat_append hi lo
  rw [h, ← Nat.shiftLeft_add_eq_or_of_lt (by omega), Nat.shiftLeft_eq]

/-- The two bytes of a word put together again are the word. -/
theorem wordOfBytes_hi_lo (w : Word) : wordOfBytes (hiByte w) (loByte w) = w := by
  apply BitVec.eq_of_toNat_eq
  have := w.isLt
  rw [wordOfBytes_toNat]
  simp only [hiByte, loByte, BitVec.toNat_ofNat, BitVec.toNat_setWidth]
  omega

theorem hiByte_wordOfBytes (hi lo : Byte) : hiByte (wordOfBytes hi lo) = hi := by
  apply BitVec.eq_of_toNat_eq
  have := hi.isLt; have := lo.isLt
  rw [hiByte, wordOfBytes_toNat, BitVec.toNat_ofNat]
  omega

theorem loByte_wordOfBytes (hi lo : Byte) : loByte (wordOfBytes hi lo) = lo := by
  apply BitVec.eq_of_toNat_eq
  have := lo.isLt
  rw [loByte, BitVec.toNat_setWidth, wordOfBytes_toNat]
  omega

/-! ## The fields of each format -/

theorem wordNNN_toNat {op : Nat} (hop : op < 16) (nnn : Addr12) : (wordNNN op nnn).toNat = op * 4096 + nnn.toNat :=
  toNat_word (by have := nnn.isLt; omega)

theorem wordXNN_toNat {op : Nat} (hop : op < 16) (x : Reg) (nn : Byte) :
    (wordXNN op x nn).toNat = op * 4096 + x.val * 256 + nn.toNat :=
  toNat_word (by have := nn.isLt; omega)

theorem wordXYN_toNat {op : Nat} (hop : op < 16) (x y : Reg) (n : Fin 16) :
    (wordXYN op x y n).toNat = op * 4096 + x.val * 256 + y.val * 16 + n.val :=
  toNat_word (by omega)

theorem opField_NNN {op : Nat} (hop : op < 16) (nnn : Addr12) : opField (wordNNN op nnn) = op := by
  have := nnn.isLt; rw [opField, wordNNN_toNat hop]; omega

theorem nnnField_NNN {op : Nat} (hop : op < 16) (nnn : Addr12) : nnnField (wordNNN op nnn) = nnn := by
  have := nnn.isLt
  apply BitVec.eq_of_toNat_eq
  rw [nnnField, BitVec.toNat_setWidth, wordNNN_toNat hop]; omega

theorem opField_XNN {op : Nat} (hop : op < 16) (x : Reg) (nn : Byte) : opField (wordXNN op x nn) = op := by
  have := nn.isLt; rw [opField, wordXNN_toNat hop]; omega

theorem xField_XNN {op : Nat} (hop : op < 16) (x : Reg) (nn : Byte) : xField (wordXNN op x nn) = x := by
  have := nn.isLt
  apply Fin.ext
  show (wordXNN op x nn).toNat / 256 % 16 = x.val
  rw [wordXNN_toNat hop]; omega

theorem nnField_XNN {op : Nat} (hop : op < 16) (x : Reg) (nn : Byte) : nnField (wordXNN op x nn) = nn := by
  have := nn.isLt
  apply BitVec.eq_of_toNat_eq
  rw [nnField, BitVec.toNat_setWidth, wordXNN_toNat hop]; omega

theorem opField_XYN {op : Nat} (hop : op < 16) (x y : Reg) (n : Fin 16) : opField (wordXYN op x y n) = op := by
  rw [opField, wordXYN_toNat hop]; omega

theorem xField_XYN {op : Nat} (hop : op < 16) (x y : Reg) (n : Fin 16) : xField (wordXYN op x y n) = x := by
  apply Fin.ext
  show (wordXYN op x y n).toNat / 256 % 16 = x.val
  rw [wordXYN_toNat hop]; omega

theorem yField_XYN {op : Nat} (hop : op < 16) (x y : Reg) (n : Fin 16) : yField (wordXYN op x y n) = y := by
  apply Fin.ext
  show (wordXYN op x y n).toNat / 16 % 16 = y.val
  rw [wordXYN_toNat hop]; omega

theorem nField_XYN {op : Nat} (hop : op < 16) (x y : Reg) (n : Fin 16) : nField (wordXYN op x y n) = n := by
  apply Fin.ext
  show (wordXYN op x y n).toNat % 16 = n.val
  rw [wordXYN_toNat hop]; omega

/-! ## Decoding one family at a time (R75) -/

theorem decodeWord_family {w : Word} {op : Nat} (h : opField w = op) : decodeWord w = decodeFamily op w := by
  rw [decodeWord, h]

theorem decodeWord_jp {w : Word} (h : opField w = 0x1) :
    decodeWord w = .instr (.jp (nnnField w)) :=
  decodeWord_family h

theorem decodeWord_call {w : Word} (h : opField w = 0x2) :
    decodeWord w = .instr (.call (nnnField w)) :=
  decodeWord_family h

theorem decodeWord_seImm {w : Word} (h : opField w = 0x3) :
    decodeWord w = .instr (.seImm (xField w) (nnField w)) :=
  decodeWord_family h

theorem decodeWord_sneImm {w : Word} (h : opField w = 0x4) :
    decodeWord w = .instr (.sneImm (xField w) (nnField w)) :=
  decodeWord_family h

theorem decodeWord_seReg {w : Word} (h : opField w = 0x5) :
    decodeWord w = if nField w = 0 then .instr (.seReg (xField w) (yField w)) else .illegal w :=
  decodeWord_family h

theorem decodeWord_ldImm {w : Word} (h : opField w = 0x6) :
    decodeWord w = .instr (.ldImm (xField w) (nnField w)) :=
  decodeWord_family h

theorem decodeWord_addImm {w : Word} (h : opField w = 0x7) :
    decodeWord w = .instr (.addImm (xField w) (nnField w)) :=
  decodeWord_family h

theorem decodeWord_alu {w : Word} (h : opField w = 0x8) :
    decodeWord w = decodeAlu w :=
  decodeWord_family h

theorem decodeWord_sneReg {w : Word} (h : opField w = 0x9) :
    decodeWord w = if nField w = 0 then .instr (.sneReg (xField w) (yField w)) else .illegal w :=
  decodeWord_family h

theorem decodeWord_ldI {w : Word} (h : opField w = 0xA) :
    decodeWord w = .instr (.ldI (nnnField w)) :=
  decodeWord_family h

theorem decodeWord_jpV0 {w : Word} (h : opField w = 0xB) :
    decodeWord w = .instr (.jpV0 (nnnField w)) :=
  decodeWord_family h

theorem decodeWord_rnd {w : Word} (h : opField w = 0xC) :
    decodeWord w = .instr (.rnd (xField w) (nnField w)) :=
  decodeWord_family h

theorem decodeWord_drw {w : Word} (h : opField w = 0xD) :
    decodeWord w = .instr (.drw (xField w) (yField w) (nField w)) :=
  decodeWord_family h

theorem decodeWord_key {w : Word} (h : opField w = 0xE) :
    decodeWord w = decodeKey w :=
  decodeWord_family h

theorem decodeWord_misc {w : Word} (h : opField w = 0xF) :
    decodeWord w = decodeMisc w :=
  decodeWord_family h

theorem decodeWord_zero {w : Word} (h : opField w = 0x0) (h1 : w ≠ 0x00E0#16) (h2 : w ≠ 0x00EE#16) :
    decodeWord w = .instr (.sys (nnnField w)) := by
  rw [decodeWord_family h]; exact (if_neg h1).trans (if_neg h2)

/-- Family 8 at a word written with sub-opcode `n`. -/
theorem decodeWord_XY8 (x y : Reg) (n : Fin 16) (i : Reg → Reg → Instr)
    (h : ∀ w, nField w = n → decodeAlu w = .instr (i (xField w) (yField w))) :
    decodeWord (wordXYN 0x8 x y n) = .instr (i x y) := by
  rw [decodeWord_alu (opField_XYN (by decide) ..), h _ (nField_XYN (by decide) ..), xField_XYN (by decide),
    yField_XYN (by decide)]

/-- Family E at a word written with sub-opcode `nn`. -/
theorem decodeWord_XE (x : Reg) (nn : Byte) (i : Reg → Instr)
    (h : ∀ w, nnField w = nn → decodeKey w = .instr (i (xField w))) :
    decodeWord (wordXNN 0xE x nn) = .instr (i x) := by
  rw [decodeWord_key (opField_XNN (by decide) ..), h _ (nnField_XNN (by decide) ..), xField_XNN (by decide)]

/-- Family F at a word written with sub-opcode `nn`. -/
theorem decodeWord_XF (x : Reg) (nn : Byte) (i : Reg → Instr)
    (h : ∀ w, nnField w = nn → decodeMisc w = .instr (i (xField w))) :
    decodeWord (wordXNN 0xF x nn) = .instr (i x) := by
  rw [decodeWord_misc (opField_XNN (by decide) ..), h _ (nnField_XNN (by decide) ..), xField_XNN (by decide)]

end Sys2Proof
end

