-- ==== Sys2Proof/Laws/State.lean ====
section
/-! SUPPORT. What each named update does to each field of State: one lemma per field per update, true by definition, so
that no later proof unfolds a record update. -/

namespace Sys2Proof.Machine

variable (s : State)

/-! ## emit -/

@[simp] theorem State.emit_V (es : List Event) : (s.emit es).V = s.V := rfl
@[simp] theorem State.emit_I (es : List Event) : (s.emit es).I = s.I := rfl
@[simp] theorem State.emit_pc (es : List Event) : (s.emit es).pc = s.pc := rfl
@[simp] theorem State.emit_SP (es : List Event) : (s.emit es).SP = s.SP := rfl
@[simp] theorem State.emit_STACK (es : List Event) : (s.emit es).STACK = s.STACK := rfl
@[simp] theorem State.emit_DT (es : List Event) : (s.emit es).DT = s.DT := rfl
@[simp] theorem State.emit_ST (es : List Event) : (s.emit es).ST = s.ST := rfl
@[simp] theorem State.emit_FB (es : List Event) : (s.emit es).FB = s.FB := rfl
@[simp] theorem State.emit_mem (es : List Event) : (s.emit es).mem = s.mem := rfl
@[simp] theorem State.emit_KEY (es : List Event) : (s.emit es).KEY = s.KEY := rfl
@[simp] theorem State.emit_fault (es : List Event) : (s.emit es).fault = s.fault := rfl
@[simp] theorem State.emit_faultInfo (es : List Event) : (s.emit es).faultInfo = s.faultInfo := rfl
@[simp] theorem State.emit_fontBase (es : List Event) : (s.emit es).fontBase = s.fontBase := rfl
@[simp] theorem State.emit_draws (es : List Event) : (s.emit es).draws = s.draws := rfl
@[simp] theorem State.emit_schedule (es : List Event) : (s.emit es).schedule = s.schedule := rfl
@[simp] theorem State.emit_events (es : List Event) : (s.emit es).events = s.events ++ es := rfl
@[simp] theorem State.emit_byteAt (es : List Event) (b : Nat) : (s.emit es).byteAt b = s.byteAt b := rfl
@[simp] theorem State.emit_reg (es : List Event) (y : Reg) : (s.emit es).reg y = s.reg y := rfl

/-! ## clearEvents -/

@[simp] theorem State.clearEvents_V : s.clearEvents.V = s.V := rfl
@[simp] theorem State.clearEvents_I : s.clearEvents.I = s.I := rfl
@[simp] theorem State.clearEvents_pc : s.clearEvents.pc = s.pc := rfl
@[simp] theorem State.clearEvents_SP : s.clearEvents.SP = s.SP := rfl
@[simp] theorem State.clearEvents_STACK : s.clearEvents.STACK = s.STACK := rfl
@[simp] theorem State.clearEvents_DT : s.clearEvents.DT = s.DT := rfl
@[simp] theorem State.clearEvents_ST : s.clearEvents.ST = s.ST := rfl
@[simp] theorem State.clearEvents_FB : s.clearEvents.FB = s.FB := rfl
@[simp] theorem State.clearEvents_mem : s.clearEvents.mem = s.mem := rfl
@[simp] theorem State.clearEvents_KEY : s.clearEvents.KEY = s.KEY := rfl
@[simp] theorem State.clearEvents_fault : s.clearEvents.fault = s.fault := rfl
@[simp] theorem State.clearEvents_faultInfo : s.clearEvents.faultInfo = s.faultInfo := rfl
@[simp] theorem State.clearEvents_fontBase : s.clearEvents.fontBase = s.fontBase := rfl
@[simp] theorem State.clearEvents_draws : s.clearEvents.draws = s.draws := rfl
@[simp] theorem State.clearEvents_schedule : s.clearEvents.schedule = s.schedule := rfl
@[simp] theorem State.clearEvents_events : s.clearEvents.events = [] := rfl
@[simp] theorem State.clearEvents_byteAt (b : Nat) : s.clearEvents.byteAt b = s.byteAt b := rfl
@[simp] theorem State.clearEvents_reg (y : Reg) : s.clearEvents.reg y = s.reg y := rfl

/-! ## setV -/

@[simp] theorem State.setV_V (x : Reg) (v : Byte) : (s.setV x v).V = s.V.set x.val v := rfl
@[simp] theorem State.setV_I (x : Reg) (v : Byte) : (s.setV x v).I = s.I := rfl
@[simp] theorem State.setV_pc (x : Reg) (v : Byte) : (s.setV x v).pc = s.pc := rfl
@[simp] theorem State.setV_SP (x : Reg) (v : Byte) : (s.setV x v).SP = s.SP := rfl
@[simp] theorem State.setV_STACK (x : Reg) (v : Byte) : (s.setV x v).STACK = s.STACK := rfl
@[simp] theorem State.setV_DT (x : Reg) (v : Byte) : (s.setV x v).DT = s.DT := rfl
@[simp] theorem State.setV_ST (x : Reg) (v : Byte) : (s.setV x v).ST = s.ST := rfl
@[simp] theorem State.setV_FB (x : Reg) (v : Byte) : (s.setV x v).FB = s.FB := rfl
@[simp] theorem State.setV_mem (x : Reg) (v : Byte) : (s.setV x v).mem = s.mem := rfl
@[simp] theorem State.setV_KEY (x : Reg) (v : Byte) : (s.setV x v).KEY = s.KEY := rfl
@[simp] theorem State.setV_fault (x : Reg) (v : Byte) : (s.setV x v).fault = s.fault := rfl
@[simp] theorem State.setV_faultInfo (x : Reg) (v : Byte) : (s.setV x v).faultInfo = s.faultInfo := rfl
@[simp] theorem State.setV_fontBase (x : Reg) (v : Byte) : (s.setV x v).fontBase = s.fontBase := rfl
@[simp] theorem State.setV_draws (x : Reg) (v : Byte) : (s.setV x v).draws = s.draws := rfl
@[simp] theorem State.setV_schedule (x : Reg) (v : Byte) : (s.setV x v).schedule = s.schedule := rfl
@[simp] theorem State.setV_events (x : Reg) (v : Byte) : (s.setV x v).events = s.events ++ changed (s.V[x.val] != v) (.regChanged x v) := rfl
@[simp] theorem State.setV_byteAt (x : Reg) (v : Byte) (b : Nat) : (s.setV x v).byteAt b = s.byteAt b := rfl

/-! ## setPc -/

@[simp] theorem State.setPc_V (a : Word) : (s.setPc a).V = s.V := rfl
@[simp] theorem State.setPc_I (a : Word) : (s.setPc a).I = s.I := rfl
@[simp] theorem State.setPc_pc (a : Word) : (s.setPc a).pc = a := rfl
@[simp] theorem State.setPc_SP (a : Word) : (s.setPc a).SP = s.SP := rfl
@[simp] theorem State.setPc_STACK (a : Word) : (s.setPc a).STACK = s.STACK := rfl
@[simp] theorem State.setPc_DT (a : Word) : (s.setPc a).DT = s.DT := rfl
@[simp] theorem State.setPc_ST (a : Word) : (s.setPc a).ST = s.ST := rfl
@[simp] theorem State.setPc_FB (a : Word) : (s.setPc a).FB = s.FB := rfl
@[simp] theorem State.setPc_mem (a : Word) : (s.setPc a).mem = s.mem := rfl
@[simp] theorem State.setPc_KEY (a : Word) : (s.setPc a).KEY = s.KEY := rfl
@[simp] theorem State.setPc_fault (a : Word) : (s.setPc a).fault = s.fault := rfl
@[simp] theorem State.setPc_faultInfo (a : Word) : (s.setPc a).faultInfo = s.faultInfo := rfl
@[simp] theorem State.setPc_fontBase (a : Word) : (s.setPc a).fontBase = s.fontBase := rfl
@[simp] theorem State.setPc_draws (a : Word) : (s.setPc a).draws = s.draws := rfl
@[simp] theorem State.setPc_schedule (a : Word) : (s.setPc a).schedule = s.schedule := rfl
@[simp] theorem State.setPc_events (a : Word) : (s.setPc a).events = s.events ++ changed (s.pc != a) (.pcChanged a) := rfl
@[simp] theorem State.setPc_byteAt (a : Word) (b : Nat) : (s.setPc a).byteAt b = s.byteAt b := rfl
@[simp] theorem State.setPc_reg (a : Word) (y : Reg) : (s.setPc a).reg y = s.reg y := rfl

/-! ## setI -/

@[simp] theorem State.setI_V (a : Word) : (s.setI a).V = s.V := rfl
@[simp] theorem State.setI_I (a : Word) : (s.setI a).I = a := rfl
@[simp] theorem State.setI_pc (a : Word) : (s.setI a).pc = s.pc := rfl
@[simp] theorem State.setI_SP (a : Word) : (s.setI a).SP = s.SP := rfl
@[simp] theorem State.setI_STACK (a : Word) : (s.setI a).STACK = s.STACK := rfl
@[simp] theorem State.setI_DT (a : Word) : (s.setI a).DT = s.DT := rfl
@[simp] theorem State.setI_ST (a : Word) : (s.setI a).ST = s.ST := rfl
@[simp] theorem State.setI_FB (a : Word) : (s.setI a).FB = s.FB := rfl
@[simp] theorem State.setI_mem (a : Word) : (s.setI a).mem = s.mem := rfl
@[simp] theorem State.setI_KEY (a : Word) : (s.setI a).KEY = s.KEY := rfl
@[simp] theorem State.setI_fault (a : Word) : (s.setI a).fault = s.fault := rfl
@[simp] theorem State.setI_faultInfo (a : Word) : (s.setI a).faultInfo = s.faultInfo := rfl
@[simp] theorem State.setI_fontBase (a : Word) : (s.setI a).fontBase = s.fontBase := rfl
@[simp] theorem State.setI_draws (a : Word) : (s.setI a).draws = s.draws := rfl
@[simp] theorem State.setI_schedule (a : Word) : (s.setI a).schedule = s.schedule := rfl
@[simp] theorem State.setI_events (a : Word) : (s.setI a).events = s.events := rfl
@[simp] theorem State.setI_byteAt (a : Word) (b : Nat) : (s.setI a).byteAt b = s.byteAt b := rfl
@[simp] theorem State.setI_reg (a : Word) (y : Reg) : (s.setI a).reg y = s.reg y := rfl

/-! ## setDT -/

@[simp] theorem State.setDT_V (v : Byte) : (s.setDT v).V = s.V := rfl
@[simp] theorem State.setDT_I (v : Byte) : (s.setDT v).I = s.I := rfl
@[simp] theorem State.setDT_pc (v : Byte) : (s.setDT v).pc = s.pc := rfl
@[simp] theorem State.setDT_SP (v : Byte) : (s.setDT v).SP = s.SP := rfl
@[simp] theorem State.setDT_STACK (v : Byte) : (s.setDT v).STACK = s.STACK := rfl
@[simp] theorem State.setDT_DT (v : Byte) : (s.setDT v).DT = v := rfl
@[simp] theorem State.setDT_ST (v : Byte) : (s.setDT v).ST = s.ST := rfl
@[simp] theorem State.setDT_FB (v : Byte) : (s.setDT v).FB = s.FB := rfl
@[simp] theorem State.setDT_mem (v : Byte) : (s.setDT v).mem = s.mem := rfl
@[simp] theorem State.setDT_KEY (v : Byte) : (s.setDT v).KEY = s.KEY := rfl
@[simp] theorem State.setDT_fault (v : Byte) : (s.setDT v).fault = s.fault := rfl
@[simp] theorem State.setDT_faultInfo (v : Byte) : (s.setDT v).faultInfo = s.faultInfo := rfl
@[simp] theorem State.setDT_fontBase (v : Byte) : (s.setDT v).fontBase = s.fontBase := rfl
@[simp] theorem State.setDT_draws (v : Byte) : (s.setDT v).draws = s.draws := rfl
@[simp] theorem State.setDT_schedule (v : Byte) : (s.setDT v).schedule = s.schedule := rfl
@[simp] theorem State.setDT_events (v : Byte) : (s.setDT v).events = s.events := rfl
@[simp] theorem State.setDT_byteAt (v : Byte) (b : Nat) : (s.setDT v).byteAt b = s.byteAt b := rfl
@[simp] theorem State.setDT_reg (v : Byte) (y : Reg) : (s.setDT v).reg y = s.reg y := rfl

/-! ## setST -/

@[simp] theorem State.setST_V (v : Byte) : (s.setST v).V = s.V := rfl
@[simp] theorem State.setST_I (v : Byte) : (s.setST v).I = s.I := rfl
@[simp] theorem State.setST_pc (v : Byte) : (s.setST v).pc = s.pc := rfl
@[simp] theorem State.setST_SP (v : Byte) : (s.setST v).SP = s.SP := rfl
@[simp] theorem State.setST_STACK (v : Byte) : (s.setST v).STACK = s.STACK := rfl
@[simp] theorem State.setST_DT (v : Byte) : (s.setST v).DT = s.DT := rfl
@[simp] theorem State.setST_ST (v : Byte) : (s.setST v).ST = v := rfl
@[simp] theorem State.setST_FB (v : Byte) : (s.setST v).FB = s.FB := rfl
@[simp] theorem State.setST_mem (v : Byte) : (s.setST v).mem = s.mem := rfl
@[simp] theorem State.setST_KEY (v : Byte) : (s.setST v).KEY = s.KEY := rfl
@[simp] theorem State.setST_fault (v : Byte) : (s.setST v).fault = s.fault := rfl
@[simp] theorem State.setST_faultInfo (v : Byte) : (s.setST v).faultInfo = s.faultInfo := rfl
@[simp] theorem State.setST_fontBase (v : Byte) : (s.setST v).fontBase = s.fontBase := rfl
@[simp] theorem State.setST_draws (v : Byte) : (s.setST v).draws = s.draws := rfl
@[simp] theorem State.setST_schedule (v : Byte) : (s.setST v).schedule = s.schedule := rfl
@[simp] theorem State.setST_events (v : Byte) : (s.setST v).events = s.events := rfl
@[simp] theorem State.setST_byteAt (v : Byte) (b : Nat) : (s.setST v).byteAt b = s.byteAt b := rfl
@[simp] theorem State.setST_reg (v : Byte) (y : Reg) : (s.setST v).reg y = s.reg y := rfl

/-! ## setFB -/

@[simp] theorem State.setFB_V (fb : FrameBuffer) : (s.setFB fb).V = s.V := rfl
@[simp] theorem State.setFB_I (fb : FrameBuffer) : (s.setFB fb).I = s.I := rfl
@[simp] theorem State.setFB_pc (fb : FrameBuffer) : (s.setFB fb).pc = s.pc := rfl
@[simp] theorem State.setFB_SP (fb : FrameBuffer) : (s.setFB fb).SP = s.SP := rfl
@[simp] theorem State.setFB_STACK (fb : FrameBuffer) : (s.setFB fb).STACK = s.STACK := rfl
@[simp] theorem State.setFB_DT (fb : FrameBuffer) : (s.setFB fb).DT = s.DT := rfl
@[simp] theorem State.setFB_ST (fb : FrameBuffer) : (s.setFB fb).ST = s.ST := rfl
@[simp] theorem State.setFB_FB (fb : FrameBuffer) : (s.setFB fb).FB = fb := rfl
@[simp] theorem State.setFB_mem (fb : FrameBuffer) : (s.setFB fb).mem = s.mem := rfl
@[simp] theorem State.setFB_KEY (fb : FrameBuffer) : (s.setFB fb).KEY = s.KEY := rfl
@[simp] theorem State.setFB_fault (fb : FrameBuffer) : (s.setFB fb).fault = s.fault := rfl
@[simp] theorem State.setFB_faultInfo (fb : FrameBuffer) : (s.setFB fb).faultInfo = s.faultInfo := rfl
@[simp] theorem State.setFB_fontBase (fb : FrameBuffer) : (s.setFB fb).fontBase = s.fontBase := rfl
@[simp] theorem State.setFB_draws (fb : FrameBuffer) : (s.setFB fb).draws = s.draws := rfl
@[simp] theorem State.setFB_schedule (fb : FrameBuffer) : (s.setFB fb).schedule = s.schedule := rfl
@[simp] theorem State.setFB_events (fb : FrameBuffer) : (s.setFB fb).events = s.events := rfl
@[simp] theorem State.setFB_byteAt (fb : FrameBuffer) (b : Nat) : (s.setFB fb).byteAt b = s.byteAt b := rfl
@[simp] theorem State.setFB_reg (fb : FrameBuffer) (y : Reg) : (s.setFB fb).reg y = s.reg y := rfl

/-! ## setKey -/

@[simp] theorem State.setKey_V (k : Key) (down : Bool) : (s.setKey k down).V = s.V := rfl
@[simp] theorem State.setKey_I (k : Key) (down : Bool) : (s.setKey k down).I = s.I := rfl
@[simp] theorem State.setKey_pc (k : Key) (down : Bool) : (s.setKey k down).pc = s.pc := rfl
@[simp] theorem State.setKey_SP (k : Key) (down : Bool) : (s.setKey k down).SP = s.SP := rfl
@[simp] theorem State.setKey_STACK (k : Key) (down : Bool) : (s.setKey k down).STACK = s.STACK := rfl
@[simp] theorem State.setKey_DT (k : Key) (down : Bool) : (s.setKey k down).DT = s.DT := rfl
@[simp] theorem State.setKey_ST (k : Key) (down : Bool) : (s.setKey k down).ST = s.ST := rfl
@[simp] theorem State.setKey_FB (k : Key) (down : Bool) : (s.setKey k down).FB = s.FB := rfl
@[simp] theorem State.setKey_mem (k : Key) (down : Bool) : (s.setKey k down).mem = s.mem := rfl
@[simp] theorem State.setKey_KEY (k : Key) (down : Bool) : (s.setKey k down).KEY = s.KEY.set k.val down := rfl
@[simp] theorem State.setKey_fault (k : Key) (down : Bool) : (s.setKey k down).fault = s.fault := rfl
@[simp] theorem State.setKey_faultInfo (k : Key) (down : Bool) : (s.setKey k down).faultInfo = s.faultInfo := rfl
@[simp] theorem State.setKey_fontBase (k : Key) (down : Bool) : (s.setKey k down).fontBase = s.fontBase := rfl
@[simp] theorem State.setKey_draws (k : Key) (down : Bool) : (s.setKey k down).draws = s.draws := rfl
@[simp] theorem State.setKey_schedule (k : Key) (down : Bool) : (s.setKey k down).schedule = s.schedule := rfl
@[simp] theorem State.setKey_events (k : Key) (down : Bool) : (s.setKey k down).events = s.events := rfl
@[simp] theorem State.setKey_byteAt (k : Key) (down : Bool) (b : Nat) : (s.setKey k down).byteAt b = s.byteAt b := rfl
@[simp] theorem State.setKey_reg (k : Key) (down : Bool) (y : Reg) : (s.setKey k down).reg y = s.reg y := rfl

/-! ## useDraw -/

@[simp] theorem State.useDraw_V : s.useDraw.V = s.V := rfl
@[simp] theorem State.useDraw_I : s.useDraw.I = s.I := rfl
@[simp] theorem State.useDraw_pc : s.useDraw.pc = s.pc := rfl
@[simp] theorem State.useDraw_SP : s.useDraw.SP = s.SP := rfl
@[simp] theorem State.useDraw_STACK : s.useDraw.STACK = s.STACK := rfl
@[simp] theorem State.useDraw_DT : s.useDraw.DT = s.DT := rfl
@[simp] theorem State.useDraw_ST : s.useDraw.ST = s.ST := rfl
@[simp] theorem State.useDraw_FB : s.useDraw.FB = s.FB := rfl
@[simp] theorem State.useDraw_mem : s.useDraw.mem = s.mem := rfl
@[simp] theorem State.useDraw_KEY : s.useDraw.KEY = s.KEY := rfl
@[simp] theorem State.useDraw_fault : s.useDraw.fault = s.fault := rfl
@[simp] theorem State.useDraw_faultInfo : s.useDraw.faultInfo = s.faultInfo := rfl
@[simp] theorem State.useDraw_fontBase : s.useDraw.fontBase = s.fontBase := rfl
@[simp] theorem State.useDraw_draws : s.useDraw.draws = s.draws + 1 := rfl
@[simp] theorem State.useDraw_schedule : s.useDraw.schedule = s.schedule := rfl
@[simp] theorem State.useDraw_events : s.useDraw.events = s.events := rfl
@[simp] theorem State.useDraw_byteAt (b : Nat) : s.useDraw.byteAt b = s.byteAt b := rfl
@[simp] theorem State.useDraw_reg (y : Reg) : s.useDraw.reg y = s.reg y := rfl

/-! ## raise -/

@[simp] theorem State.raise_V (f : Fault) (info : BitVec 17) : (s.raise f info).V = s.V := rfl
@[simp] theorem State.raise_I (f : Fault) (info : BitVec 17) : (s.raise f info).I = s.I := rfl
@[simp] theorem State.raise_pc (f : Fault) (info : BitVec 17) : (s.raise f info).pc = s.pc := rfl
@[simp] theorem State.raise_SP (f : Fault) (info : BitVec 17) : (s.raise f info).SP = s.SP := rfl
@[simp] theorem State.raise_STACK (f : Fault) (info : BitVec 17) : (s.raise f info).STACK = s.STACK := rfl
@[simp] theorem State.raise_DT (f : Fault) (info : BitVec 17) : (s.raise f info).DT = s.DT := rfl
@[simp] theorem State.raise_ST (f : Fault) (info : BitVec 17) : (s.raise f info).ST = s.ST := rfl
@[simp] theorem State.raise_FB (f : Fault) (info : BitVec 17) : (s.raise f info).FB = s.FB := rfl
@[simp] theorem State.raise_mem (f : Fault) (info : BitVec 17) : (s.raise f info).mem = s.mem := rfl
@[simp] theorem State.raise_KEY (f : Fault) (info : BitVec 17) : (s.raise f info).KEY = s.KEY := rfl
@[simp] theorem State.raise_fault (f : Fault) (info : BitVec 17) : (s.raise f info).fault = some f := rfl
@[simp] theorem State.raise_faultInfo (f : Fault) (info : BitVec 17) : (s.raise f info).faultInfo = info := rfl
@[simp] theorem State.raise_fontBase (f : Fault) (info : BitVec 17) : (s.raise f info).fontBase = s.fontBase := rfl
@[simp] theorem State.raise_draws (f : Fault) (info : BitVec 17) : (s.raise f info).draws = s.draws := rfl
@[simp] theorem State.raise_schedule (f : Fault) (info : BitVec 17) : (s.raise f info).schedule = s.schedule := rfl
@[simp] theorem State.raise_events (f : Fault) (info : BitVec 17) : (s.raise f info).events = s.events := rfl
@[simp] theorem State.raise_byteAt (f : Fault) (info : BitVec 17) (b : Nat) : (s.raise f info).byteAt b = s.byteAt b := rfl
@[simp] theorem State.raise_reg (f : Fault) (info : BitVec 17) (y : Reg) : (s.raise f info).reg y = s.reg y := rfl

/-! ## raiseAddress -/

@[simp] theorem State.raiseAddress_V (addr : Nat) : (s.raiseAddress addr).V = s.V := rfl
@[simp] theorem State.raiseAddress_I (addr : Nat) : (s.raiseAddress addr).I = s.I := rfl
@[simp] theorem State.raiseAddress_pc (addr : Nat) : (s.raiseAddress addr).pc = s.pc := rfl
@[simp] theorem State.raiseAddress_SP (addr : Nat) : (s.raiseAddress addr).SP = s.SP := rfl
@[simp] theorem State.raiseAddress_STACK (addr : Nat) : (s.raiseAddress addr).STACK = s.STACK := rfl
@[simp] theorem State.raiseAddress_DT (addr : Nat) : (s.raiseAddress addr).DT = s.DT := rfl
@[simp] theorem State.raiseAddress_ST (addr : Nat) : (s.raiseAddress addr).ST = s.ST := rfl
@[simp] theorem State.raiseAddress_FB (addr : Nat) : (s.raiseAddress addr).FB = s.FB := rfl
@[simp] theorem State.raiseAddress_mem (addr : Nat) : (s.raiseAddress addr).mem = s.mem := rfl
@[simp] theorem State.raiseAddress_KEY (addr : Nat) : (s.raiseAddress addr).KEY = s.KEY := rfl
@[simp] theorem State.raiseAddress_fault (addr : Nat) : (s.raiseAddress addr).fault = some .addressOutOfBounds := rfl
@[simp] theorem State.raiseAddress_faultInfo (addr : Nat) : (s.raiseAddress addr).faultInfo = BitVec.ofNat 17 addr := rfl
@[simp] theorem State.raiseAddress_fontBase (addr : Nat) : (s.raiseAddress addr).fontBase = s.fontBase := rfl
@[simp] theorem State.raiseAddress_draws (addr : Nat) : (s.raiseAddress addr).draws = s.draws := rfl
@[simp] theorem State.raiseAddress_schedule (addr : Nat) : (s.raiseAddress addr).schedule = s.schedule := rfl
@[simp] theorem State.raiseAddress_events (addr : Nat) : (s.raiseAddress addr).events = s.events := rfl
@[simp] theorem State.raiseAddress_byteAt (addr : Nat) (b : Nat) : (s.raiseAddress addr).byteAt b = s.byteAt b := rfl
@[simp] theorem State.raiseAddress_reg (addr : Nat) (y : Reg) : (s.raiseAddress addr).reg y = s.reg y := rfl

/-! ## raiseOpcode -/

@[simp] theorem State.raiseOpcode_V (w : Word) : (s.raiseOpcode w).V = s.V := rfl
@[simp] theorem State.raiseOpcode_I (w : Word) : (s.raiseOpcode w).I = s.I := rfl
@[simp] theorem State.raiseOpcode_pc (w : Word) : (s.raiseOpcode w).pc = s.pc := rfl
@[simp] theorem State.raiseOpcode_SP (w : Word) : (s.raiseOpcode w).SP = s.SP := rfl
@[simp] theorem State.raiseOpcode_STACK (w : Word) : (s.raiseOpcode w).STACK = s.STACK := rfl
@[simp] theorem State.raiseOpcode_DT (w : Word) : (s.raiseOpcode w).DT = s.DT := rfl
@[simp] theorem State.raiseOpcode_ST (w : Word) : (s.raiseOpcode w).ST = s.ST := rfl
@[simp] theorem State.raiseOpcode_FB (w : Word) : (s.raiseOpcode w).FB = s.FB := rfl
@[simp] theorem State.raiseOpcode_mem (w : Word) : (s.raiseOpcode w).mem = s.mem := rfl
@[simp] theorem State.raiseOpcode_KEY (w : Word) : (s.raiseOpcode w).KEY = s.KEY := rfl
@[simp] theorem State.raiseOpcode_fault (w : Word) : (s.raiseOpcode w).fault = some .unknownOpcode := rfl
@[simp] theorem State.raiseOpcode_faultInfo (w : Word) : (s.raiseOpcode w).faultInfo = w.setWidth 17 := rfl
@[simp] theorem State.raiseOpcode_fontBase (w : Word) : (s.raiseOpcode w).fontBase = s.fontBase := rfl
@[simp] theorem State.raiseOpcode_draws (w : Word) : (s.raiseOpcode w).draws = s.draws := rfl
@[simp] theorem State.raiseOpcode_schedule (w : Word) : (s.raiseOpcode w).schedule = s.schedule := rfl
@[simp] theorem State.raiseOpcode_events (w : Word) : (s.raiseOpcode w).events = s.events := rfl
@[simp] theorem State.raiseOpcode_byteAt (w : Word) (b : Nat) : (s.raiseOpcode w).byteAt b = s.byteAt b := rfl
@[simp] theorem State.raiseOpcode_reg (w : Word) (y : Reg) : (s.raiseOpcode w).reg y = s.reg y := rfl

/-! ## raiseStack -/

@[simp] theorem State.raiseStack_V (f : Fault) : (s.raiseStack f).V = s.V := rfl
@[simp] theorem State.raiseStack_I (f : Fault) : (s.raiseStack f).I = s.I := rfl
@[simp] theorem State.raiseStack_pc (f : Fault) : (s.raiseStack f).pc = s.pc := rfl
@[simp] theorem State.raiseStack_SP (f : Fault) : (s.raiseStack f).SP = s.SP := rfl
@[simp] theorem State.raiseStack_STACK (f : Fault) : (s.raiseStack f).STACK = s.STACK := rfl
@[simp] theorem State.raiseStack_DT (f : Fault) : (s.raiseStack f).DT = s.DT := rfl
@[simp] theorem State.raiseStack_ST (f : Fault) : (s.raiseStack f).ST = s.ST := rfl
@[simp] theorem State.raiseStack_FB (f : Fault) : (s.raiseStack f).FB = s.FB := rfl
@[simp] theorem State.raiseStack_mem (f : Fault) : (s.raiseStack f).mem = s.mem := rfl
@[simp] theorem State.raiseStack_KEY (f : Fault) : (s.raiseStack f).KEY = s.KEY := rfl
@[simp] theorem State.raiseStack_fault (f : Fault) : (s.raiseStack f).fault = some f := rfl
@[simp] theorem State.raiseStack_faultInfo (f : Fault) : (s.raiseStack f).faultInfo = Config.unspecifiedInfo s.draws := rfl
@[simp] theorem State.raiseStack_fontBase (f : Fault) : (s.raiseStack f).fontBase = s.fontBase := rfl
@[simp] theorem State.raiseStack_draws (f : Fault) : (s.raiseStack f).draws = s.draws + 1 := rfl
@[simp] theorem State.raiseStack_schedule (f : Fault) : (s.raiseStack f).schedule = s.schedule := rfl
@[simp] theorem State.raiseStack_events (f : Fault) : (s.raiseStack f).events = s.events := rfl
@[simp] theorem State.raiseStack_byteAt (f : Fault) (b : Nat) : (s.raiseStack f).byteAt b = s.byteAt b := rfl
@[simp] theorem State.raiseStack_reg (f : Fault) (y : Reg) : (s.raiseStack f).reg y = s.reg y := rfl

/-! ## setByte -/

@[simp] theorem State.setByte_V (a : Nat) (v : Byte) : (s.setByte a v).V = s.V := rfl
@[simp] theorem State.setByte_I (a : Nat) (v : Byte) : (s.setByte a v).I = s.I := rfl
@[simp] theorem State.setByte_pc (a : Nat) (v : Byte) : (s.setByte a v).pc = s.pc := rfl
@[simp] theorem State.setByte_SP (a : Nat) (v : Byte) : (s.setByte a v).SP = s.SP := rfl
@[simp] theorem State.setByte_STACK (a : Nat) (v : Byte) : (s.setByte a v).STACK = s.STACK := rfl
@[simp] theorem State.setByte_DT (a : Nat) (v : Byte) : (s.setByte a v).DT = s.DT := rfl
@[simp] theorem State.setByte_ST (a : Nat) (v : Byte) : (s.setByte a v).ST = s.ST := rfl
@[simp] theorem State.setByte_FB (a : Nat) (v : Byte) : (s.setByte a v).FB = s.FB := rfl
@[simp] theorem State.setByte_mem (a : Nat) (v : Byte) : (s.setByte a v).mem = Memory.write s.fontBase s.mem a v := rfl
@[simp] theorem State.setByte_KEY (a : Nat) (v : Byte) : (s.setByte a v).KEY = s.KEY := rfl
@[simp] theorem State.setByte_fault (a : Nat) (v : Byte) : (s.setByte a v).fault = s.fault := rfl
@[simp] theorem State.setByte_faultInfo (a : Nat) (v : Byte) : (s.setByte a v).faultInfo = s.faultInfo := rfl
@[simp] theorem State.setByte_fontBase (a : Nat) (v : Byte) : (s.setByte a v).fontBase = s.fontBase := rfl
@[simp] theorem State.setByte_draws (a : Nat) (v : Byte) : (s.setByte a v).draws = s.draws := rfl
@[simp] theorem State.setByte_schedule (a : Nat) (v : Byte) : (s.setByte a v).schedule = s.schedule := rfl
@[simp] theorem State.setByte_events (a : Nat) (v : Byte) : (s.setByte a v).events = s.events ++ changed (s.byteAt a != v) (.memChanged a v) := rfl
@[simp] theorem State.setByte_reg (a : Nat) (v : Byte) (y : Reg) : (s.setByte a v).reg y = s.reg y := rfl

/-! ## advance -/

@[simp] theorem State.advance_V : s.advance.V = s.V := rfl
@[simp] theorem State.advance_I : s.advance.I = s.I := rfl
@[simp] theorem State.advance_pc : s.advance.pc = s.pc + 2 := rfl
@[simp] theorem State.advance_SP : s.advance.SP = s.SP := rfl
@[simp] theorem State.advance_STACK : s.advance.STACK = s.STACK := rfl
@[simp] theorem State.advance_DT : s.advance.DT = s.DT := rfl
@[simp] theorem State.advance_ST : s.advance.ST = s.ST := rfl
@[simp] theorem State.advance_FB : s.advance.FB = s.FB := rfl
@[simp] theorem State.advance_mem : s.advance.mem = s.mem := rfl
@[simp] theorem State.advance_KEY : s.advance.KEY = s.KEY := rfl
@[simp] theorem State.advance_fault : s.advance.fault = s.fault := rfl
@[simp] theorem State.advance_faultInfo : s.advance.faultInfo = s.faultInfo := rfl
@[simp] theorem State.advance_fontBase : s.advance.fontBase = s.fontBase := rfl
@[simp] theorem State.advance_draws : s.advance.draws = s.draws := rfl
@[simp] theorem State.advance_schedule : s.advance.schedule = s.schedule := rfl
@[simp] theorem State.advance_events : s.advance.events = s.events ++ changed (s.pc != s.pc + 2) (.pcChanged (s.pc + 2)) := rfl
@[simp] theorem State.advance_byteAt (b : Nat) : s.advance.byteAt b = s.byteAt b := rfl
@[simp] theorem State.advance_reg (y : Reg) : s.advance.reg y = s.reg y := rfl

/-! ## tick -/

@[simp] theorem State.tick_V : s.tick.V = s.V := rfl
@[simp] theorem State.tick_I : s.tick.I = s.I := rfl
@[simp] theorem State.tick_pc : s.tick.pc = s.pc := rfl
@[simp] theorem State.tick_SP : s.tick.SP = s.SP := rfl
@[simp] theorem State.tick_STACK : s.tick.STACK = s.STACK := rfl
@[simp] theorem State.tick_DT : s.tick.DT = countDown s.DT := rfl
@[simp] theorem State.tick_ST : s.tick.ST = countDown s.ST := rfl
@[simp] theorem State.tick_FB : s.tick.FB = s.FB := rfl
@[simp] theorem State.tick_mem : s.tick.mem = s.mem := rfl
@[simp] theorem State.tick_KEY : s.tick.KEY = s.KEY := rfl
@[simp] theorem State.tick_fault : s.tick.fault = s.fault := rfl
@[simp] theorem State.tick_faultInfo : s.tick.faultInfo = s.faultInfo := rfl
@[simp] theorem State.tick_fontBase : s.tick.fontBase = s.fontBase := rfl
@[simp] theorem State.tick_draws : s.tick.draws = s.draws := rfl
@[simp] theorem State.tick_schedule : s.tick.schedule = s.schedule := rfl
@[simp] theorem State.tick_events : s.tick.events = s.events := rfl
@[simp] theorem State.tick_byteAt (b : Nat) : s.tick.byteAt b = s.byteAt b := rfl
@[simp] theorem State.tick_reg (y : Reg) : s.tick.reg y = s.reg y := rfl

/-! ## skipIf -/

@[simp] theorem State.skipIf_V (c : Bool) : (s.skipIf c).V = s.V := by cases c <;> rfl
@[simp] theorem State.skipIf_I (c : Bool) : (s.skipIf c).I = s.I := by cases c <;> rfl
@[simp] theorem State.skipIf_SP (c : Bool) : (s.skipIf c).SP = s.SP := by cases c <;> rfl
@[simp] theorem State.skipIf_STACK (c : Bool) : (s.skipIf c).STACK = s.STACK := by cases c <;> rfl
@[simp] theorem State.skipIf_DT (c : Bool) : (s.skipIf c).DT = s.DT := by cases c <;> rfl
@[simp] theorem State.skipIf_ST (c : Bool) : (s.skipIf c).ST = s.ST := by cases c <;> rfl
@[simp] theorem State.skipIf_FB (c : Bool) : (s.skipIf c).FB = s.FB := by cases c <;> rfl
@[simp] theorem State.skipIf_mem (c : Bool) : (s.skipIf c).mem = s.mem := by cases c <;> rfl
@[simp] theorem State.skipIf_KEY (c : Bool) : (s.skipIf c).KEY = s.KEY := by cases c <;> rfl
@[simp] theorem State.skipIf_fault (c : Bool) : (s.skipIf c).fault = s.fault := by cases c <;> rfl
@[simp] theorem State.skipIf_faultInfo (c : Bool) : (s.skipIf c).faultInfo = s.faultInfo := by cases c <;> rfl
@[simp] theorem State.skipIf_fontBase (c : Bool) : (s.skipIf c).fontBase = s.fontBase := by cases c <;> rfl
@[simp] theorem State.skipIf_draws (c : Bool) : (s.skipIf c).draws = s.draws := by cases c <;> rfl
@[simp] theorem State.skipIf_schedule (c : Bool) : (s.skipIf c).schedule = s.schedule := by cases c <;> rfl
@[simp] theorem State.skipIf_byteAt (c : Bool) (b : Nat) : (s.skipIf c).byteAt b = s.byteAt b := by cases c <;> rfl
@[simp] theorem State.skipIf_pc (c : Bool) : (s.skipIf c).pc = if c then s.pc + 2 else s.pc := by cases c <;> rfl

/-! ## Actions -/

@[simp] theorem Act.ok_bind {α β : Type} (a : α) (s : State) (f : α → State → Act β) :
    (Act.ok a s).bind f = f a s := rfl

@[simp] theorem Act.halted_bind {α β : Type} (s : State) (f : α → State → Act β) :
    (Act.halted s : Act α).bind f = .halted s := rfl

@[simp] theorem Act.ok_outcome {α : Type} (a : α) (s : State) : (Act.ok a s).outcome = .next s := rfl

@[simp] theorem Act.halted_outcome {α : Type} (s : State) : (Act.halted s : Act α).outcome = .next s := rfl

@[simp] theorem Act.ok_state {α : Type} (a : α) (s : State) : (Act.ok a s).state = s := rfl

@[simp] theorem Act.halted_state {α : Type} (s : State) : (Act.halted s : Act α).state = s := rfl

/-! ## The register file -/

theorem State.setV_V_self (x : Reg) (v : Byte) : (s.setV x v).V[x.val] = v := by simp

theorem State.setV_V_other (x : Reg) (v : Byte) (k : Nat) (hk : k < 16) (h : x.val ≠ k) :
    (s.setV x v).V[k] = s.V[k] := by simp [h]

end Sys2Proof.Machine
end

