-- ==== Sys2Proof/Laws/Memory.lean ====
section
/-! SUPPORT. The laws of memory: a read after a write (spec/20_memory.md R52, R68), and that every memory operation keeps
the canonical form. -/

namespace Sys2Proof.Machine

variable (fb : FontBase)

/-! ## The list operations -/

theorem Memory.mem_erase {m : Memory} {a : Nat} {c : Host.Cell} (h : c ∈ Memory.erase m a) : c ∈ m := by
  induction m with
  | nil => exact absurd h List.not_mem_nil
  | cons p m ih =>
    obtain ⟨b, u⟩ := p
    unfold Memory.erase at h
    split at h
    · exact List.mem_cons_of_mem _ h
    · rcases List.mem_cons.mp h with h | h
      · exact List.mem_cons.mpr (.inl h)
      · exact List.mem_cons_of_mem _ (ih h)

theorem Memory.mem_insert {m : Memory} {a : Nat} {v : Byte} {c : Host.Cell} (h : c ∈ Memory.insert m a v) :
    c = (a, v) ∨ c ∈ m := by
  induction m with
  | nil => simpa [Memory.insert] using h
  | cons p m ih =>
    obtain ⟨b, u⟩ := p
    unfold Memory.insert at h
    split at h
    · simpa using h
    · split at h
      · rcases List.mem_cons.mp h with h | h
        · exact .inl h
        · exact .inr (List.mem_cons_of_mem _ h)
      · rcases List.mem_cons.mp h with h | h
        · exact .inr (List.mem_cons.mpr (.inl h))
        · exact (ih h).imp_right (List.mem_cons_of_mem _)

theorem Memory.erase_rising {m : Memory} (a : Nat) (h : m.Pairwise (fun p q => p.1 < q.1)) :
    (Memory.erase m a).Pairwise (fun p q => p.1 < q.1) := by
  induction m with
  | nil => exact h
  | cons p m ih =>
    obtain ⟨hp, hm⟩ := List.pairwise_cons.mp h
    unfold Memory.erase
    split
    · exact hm
    · exact List.pairwise_cons.mpr ⟨fun q hq => hp q (Memory.mem_erase hq), ih hm⟩

theorem Memory.insert_rising {m : Memory} (a : Nat) (v : Byte) (h : m.Pairwise (fun p q => p.1 < q.1)) :
    (Memory.insert m a v).Pairwise (fun p q => p.1 < q.1) := by
  induction m with
  | nil => simp [Memory.insert]
  | cons p m ih =>
    obtain ⟨hp, hm⟩ := List.pairwise_cons.mp h
    unfold Memory.insert
    split
    · rename_i hlt
      refine List.pairwise_cons.mpr ⟨fun q hq => ?_, h⟩
      rcases List.mem_cons.mp hq with rfl | hq
      · exact hlt
      · exact Nat.lt_trans hlt (hp q hq)
    · split
      · rename_i heq
        exact List.pairwise_cons.mpr ⟨fun q hq => by rw [heq]; exact hp q hq, hm⟩
      · rename_i hlt hne
        refine List.pairwise_cons.mpr ⟨fun q hq => ?_, ih hm⟩
        rcases Memory.mem_insert hq with rfl | hq
        · show _ < a; omega
        · exact hp q hq

theorem Memory.listed_insert (m : Memory) (a b : Nat) (v : Byte) :
    Memory.listed (Memory.insert m a v) b = if b = a then some v else Memory.listed m b := by
  induction m with
  | nil => simp [Memory.insert, Memory.listed]
  | cons p m ih =>
    obtain ⟨c, u⟩ := p
    unfold Memory.insert
    split
    · simp [Memory.listed]
    · split
      · rename_i h; subst h; simp [Memory.listed]; split <;> simp_all
      · simp only [Memory.listed, ih]
        split <;> split <;> simp_all

theorem Memory.listed_none_of_lt {m : Memory} {a : Nat} (h : ∀ c ∈ m, a < c.1) : Memory.listed m a = none := by
  induction m with
  | nil => rfl
  | cons p m ih =>
    have hp := h p (List.mem_cons_self ..)
    simp only [Memory.listed]
    rw [if_neg (by omega)]
    exact ih fun c hc => h c (List.mem_cons_of_mem _ hc)

theorem Memory.listed_erase {m : Memory} (a b : Nat) (h : m.Pairwise (fun p q => p.1 < q.1)) :
    Memory.listed (Memory.erase m a) b = if b = a then none else Memory.listed m b := by
  induction m with
  | nil => simp [Memory.erase, Memory.listed]
  | cons p m ih =>
    obtain ⟨c, u⟩ := p
    obtain ⟨hp, hm⟩ := List.pairwise_cons.mp h
    unfold Memory.erase
    split
    · rename_i hac
      subst hac
      simp only [Memory.listed]
      split
      · rename_i hb; subst hb; exact Memory.listed_none_of_lt hp
      · rfl
    · simp only [Memory.listed, ih hm]
      split <;> split <;> simp_all

/-! ## Reading and writing -/

/-- A read after a write in a canonical memory: the value written at its address, every other address as before (R52). -/
theorem Memory.read_write {m : Memory} (h : Memory.wf fb m) (a b : Nat) (v : Byte) :
    Memory.read fb (Memory.write fb m a v) b = if b = a then v else Memory.read fb m b := by
  unfold Memory.write Memory.read
  split
  · rename_i hv
    rw [Memory.listed_erase a b h.1]
    by_cases hb : b = a
    · subst hb; simp [hv]
    · simp [hb]
  · rw [Memory.listed_insert]
    by_cases hb : b = a <;> simp [hb]

/-- Every write inside the memory keeps the canonical form. -/
theorem Memory.write_wf {m : Memory} (h : Memory.wf fb m) {a : Nat} (ha : a < 4096) (v : Byte) :
    Memory.wf fb (Memory.write fb m a v) := by
  unfold Memory.write
  split
  · exact ⟨Memory.erase_rising a h.1, fun c hc => h.2 c (Memory.mem_erase hc)⟩
  · rename_i hv
    refine ⟨Memory.insert_rising a v h.1, fun c hc => ?_⟩
    rcases Memory.mem_insert hc with rfl | hc
    · exact ⟨ha, hv⟩
    · exact h.2 c hc

/-- The memory after reset is canonical: nothing is listed. -/
theorem Memory.nil_wf : Memory.wf fb [] := ⟨List.Pairwise.nil, fun _ h => absurd h List.not_mem_nil⟩

/-- An unlisted memory reads as reset left it (R59, R60). -/
@[simp] theorem Memory.read_nil (a : Nat) : Memory.read fb [] a = resetByte fb a := rfl

/-- `mem[a] <- v` as seen through the read of one byte. -/
theorem State.setByte_byteAt {s : State} (h : Memory.wf s.fontBase s.mem) (a b : Nat) (v : Byte) :
    (s.setByte a v).byteAt b = if b = a then v else s.byteAt b := Memory.read_write s.fontBase h a b v

end Sys2Proof.Machine
end

