-- ==== Sys2Proof/Laws/Ops.lean ====
section
/-! SUPPORT. One lemma per shared operation that says everything it can do: single accesses, the multi-byte reads, stores
and register loads with their partial effects at a fault (spec/60_exceptions.md R228), and the call stack. -/

namespace Sys2Proof.Machine

variable {s : State}

/-! ## Single accesses (R51, R52) -/

theorem memRead_ok {a : Nat} (h : a ≤ 4095) : memRead a s = .ok (s.byteAt a) s := if_neg (by omega)

theorem memRead_halted {a : Nat} (h : 4096 ≤ a) : memRead a s = .halted (s.raiseAddress a) := if_pos (by omega)

theorem memWrite_ok {a : Nat} {v : Byte} (h : a ≤ 4095) : memWrite a v s = .ok () (s.setByte a v) := if_neg (by omega)

theorem memWrite_halted {a : Nat} {v : Byte} (h : 4096 ≤ a) : memWrite a v s = .halted (s.raiseAddress a) :=
  if_pos (by omega)

/-! ## Reading a row of bytes -/

theorem readBytes_ok {base : Nat} (n : Nat) (h : n = 0 ∨ base + n ≤ 4096) :
    readBytes base n s = .ok ((List.range n).map fun i => s.byteAt (base + i)) s := by
  induction n generalizing base with
  | zero => rfl
  | succ n ih =>
    rw [readBytes, memRead_ok (by omega), Act.ok_bind, ih (by omega), Act.ok_bind, List.range_succ_eq_map]
    simp [Nat.add_assoc, Nat.add_comm 1]

theorem readBytes_halted {base : Nat} (n : Nat) (hn : n ≠ 0) (h : 4096 < base + n) :
    readBytes base n s = .halted (s.raiseAddress (max base 4096)) := by
  induction n generalizing base with
  | zero => exact absurd rfl hn
  | succ n ih =>
    rw [readBytes]
    by_cases hb : 4096 ≤ base
    · rw [memRead_halted hb, Act.halted_bind, Nat.max_eq_left hb]
    · rw [memRead_ok (by omega), Act.ok_bind, ih (by omega) (by omega), Act.halted_bind]
      congr 2; omega

/-! ## Storing a row of bytes -/

/-- A store touches memory and the events, and on a fault the latch; nothing else. -/
theorem storeBytes_frame (base : Nat) (bs : List Byte) (s : State) :
    ∃ m ev f inf, (storeBytes base bs s).state = { s with mem := m, events := s.events ++ ev, fault := f, faultInfo := inf } := by
  induction bs generalizing base s with
  | nil => exact ⟨s.mem, [], s.fault, s.faultInfo, by simp [storeBytes]⟩
  | cons b bs ih =>
    rw [storeBytes]
    by_cases h : base ≤ 4095
    · rw [memWrite_ok h, Act.ok_bind]
      obtain ⟨m, ev, f, inf, hs⟩ := ih (base + 1) (s.setByte base b)
      exact ⟨m, changed (s.byteAt base != b) (.memChanged base b) ++ ev, f, inf, by rw [hs]; simp [State.setByte]⟩
    · rw [memWrite_halted (by omega), Act.halted_bind]
      exact ⟨s.mem, [], some .addressOutOfBounds, BitVec.ofNat 17 base, by simp [State.raiseAddress, State.raise]⟩

/-- Where every byte fits, the store completes and touches memory and the events only. -/
theorem storeBytes_ok {base : Nat} (bs : List Byte) (h : bs = [] ∨ base + bs.length ≤ 4096) (s : State) :
    ∃ m ev, storeBytes base bs s = .ok () { s with mem := m, events := s.events ++ ev } := by
  induction bs generalizing base s with
  | nil => exact ⟨s.mem, [], by simp [storeBytes]⟩
  | cons b bs ih =>
    simp only [List.length_cons, reduceCtorEq, false_or] at h
    obtain ⟨m, ev, hs⟩ := ih (base := base + 1) (by right; omega) (s.setByte base b)
    exact ⟨m, changed (s.byteAt base != b) (.memChanged base b) ++ ev, by
      rw [storeBytes, memWrite_ok (by omega), Act.ok_bind, hs]; simp [State.setByte]⟩

/-- Where one does not fit, the store halts at the lowest address that does not exist (R229). -/
theorem storeBytes_halted {base : Nat} (bs : List Byte) (hb : bs ≠ []) (h : 4096 < base + bs.length) (s : State) :
    ∃ m ev, storeBytes base bs s = .halted
      { s with
        mem := m, events := s.events ++ ev, fault := some .addressOutOfBounds
        faultInfo := BitVec.ofNat 17 (max base 4096) } := by
  induction bs generalizing base s with
  | nil => exact absurd rfl hb
  | cons b bs ih =>
    simp only [List.length_cons] at h
    rw [storeBytes]
    by_cases hlo : base ≤ 4095
    · rw [memWrite_ok hlo, Act.ok_bind]
      have hne : bs ≠ [] := by rintro rfl; simp at h; omega
      obtain ⟨m, ev, hs⟩ := ih (base := base + 1) hne (by omega) (s.setByte base b)
      refine ⟨m, changed (s.byteAt base != b) (.memChanged base b) ++ ev, ?_⟩
      have : max (base + 1) 4096 = max base 4096 := by omega
      rw [hs, this]; simp [State.setByte]
    · rw [memWrite_halted (by omega), Act.halted_bind]
      refine ⟨s.mem, [], ?_⟩
      have : max base 4096 = base := by omega
      rw [this]; simp [State.raiseAddress, State.raise]

/-- The canonical form is kept by every store, completed or halted. -/
theorem storeBytes_wf (base : Nat) (bs : List Byte) {s : State} (h : Memory.wf s.fontBase s.mem) :
    Memory.wf (storeBytes base bs s).state.fontBase (storeBytes base bs s).state.mem := by
  induction bs generalizing base s with
  | nil => exact h
  | cons b bs ih =>
    rw [storeBytes]
    by_cases hlo : base ≤ 4095
    · rw [memWrite_ok hlo, Act.ok_bind]
      exact ih (base + 1) (Memory.write_wf s.fontBase h (by omega) b)
    · rw [memWrite_halted (by omega), Act.halted_bind]
      exact h

/-- The bytes after a store: those inside the memory are stored, in order, every other one is as before (R140, R228). -/
theorem storeBytes_byteAt (base : Nat) (bs : List Byte) {s : State} (h : Memory.wf s.fontBase s.mem) (a : Nat) :
    (storeBytes base bs s).state.byteAt a =
      if base ≤ a ∧ a < base + bs.length ∧ a < 4096 then bs.getD (a - base) 0 else s.byteAt a := by
  induction bs generalizing base s with
  | nil => rw [if_neg (by simp; omega)]; rfl
  | cons b bs ih =>
    rw [storeBytes]
    simp only [List.length_cons]
    by_cases hlo : base ≤ 4095
    · rw [memWrite_ok hlo, Act.ok_bind, ih (base + 1) (Memory.write_wf s.fontBase h (by omega) b),
        State.setByte_byteAt h]
      by_cases ha : a = base
      · subst ha
        rw [if_neg (by omega), if_pos rfl, if_pos (by omega)]; simp
      · by_cases hin : base + 1 ≤ a ∧ a < base + 1 + bs.length ∧ a < 4096
        · rw [if_pos hin, if_pos (by omega)]
          obtain ⟨k, rfl⟩ : ∃ k, a = base + 1 + k := ⟨a - (base + 1), by omega⟩
          rw [show base + 1 + k - (base + 1) = k by omega, show base + 1 + k - base = k + 1 by omega]; simp
        · rw [if_neg hin, if_neg ha, if_neg (by omega)]
    · rw [memWrite_halted (by omega), Act.halted_bind, if_neg (by omega)]; rfl

/-! ## Loading registers -/

/-- Where every byte exists, the registers of the list are loaded and nothing else changes (R146). -/
theorem loadRegs_ok {base : Nat} (rs : List Reg) (h : ∀ r ∈ rs, base + r.val ≤ 4095) (s : State) :
    ∃ V ev, loadRegs base rs s = .ok () { s with V := V, events := s.events ++ ev } ∧
      ∀ r : Reg, V[r.val] = if r ∈ rs then s.byteAt (base + r.val) else s.reg r := by
  induction rs generalizing s with
  | nil => exact ⟨s.V, [], by simp [loadRegs], fun r => by simp [State.reg]⟩
  | cons q rs ih =>
    obtain ⟨V, ev, hs, hV⟩ := ih (fun r hr => h r (List.mem_cons_of_mem _ hr)) (s.setV q (s.byteAt (base + q.val)))
    refine ⟨V, changed (s.V[q.val] != s.byteAt (base + q.val)) (.regChanged q (s.byteAt (base + q.val))) ++ ev, ?_, ?_⟩
    · rw [loadRegs, memRead_ok (h q List.mem_cons_self), Act.ok_bind, hs]; simp [State.setV]
    · intro r
      rw [hV r]
      simp only [State.setV_byteAt, List.mem_cons]
      by_cases hr : r ∈ rs
      · simp [hr]
      · by_cases hq : r = q
        · subst hq; simp [hr, State.reg]
        · have : q.val ≠ r.val := fun e => hq (Fin.ext e.symm)
          simp [hr, hq, State.reg, this]

/-- Where a byte does not exist, the registers before it are loaded, the rest are as before, and the first address that
does not exist is latched (R146, R228, R229). -/
theorem loadRegs_halted {base : Nat} (rs : List Reg) (hasc : rs.Pairwise (fun p q => p.val < q.val))
    (h : ∃ r ∈ rs, 4095 < base + r.val) (s : State) :
    ∃ V ev, ∃ q ∈ rs, 4095 < base + q.val ∧ (∀ r ∈ rs, r.val < q.val → base + r.val ≤ 4095) ∧
      loadRegs base rs s = .halted
        { s with
          V := V, events := s.events ++ ev, fault := some .addressOutOfBounds
          faultInfo := BitVec.ofNat 17 (base + q.val) } ∧
      ∀ r : Reg, V[r.val] = if r ∈ rs ∧ base + r.val ≤ 4095 then s.byteAt (base + r.val) else s.reg r := by
  induction rs generalizing s with
  | nil => simp at h
  | cons p rs ih =>
    obtain ⟨hp, hrs⟩ := List.pairwise_cons.mp hasc
    by_cases hlo : base + p.val ≤ 4095
    · have h' : ∃ r ∈ rs, 4095 < base + r.val := by
        obtain ⟨r, hr, hbig⟩ := h
        rcases List.mem_cons.mp hr with rfl | hr
        · omega
        · exact ⟨r, hr, hbig⟩
      obtain ⟨V, ev, q, hq, hbig, hfirst, hs, hV⟩ := ih hrs h' (s.setV p (s.byteAt (base + p.val)))
      refine ⟨V, changed (s.V[p.val] != s.byteAt (base + p.val)) (.regChanged p (s.byteAt (base + p.val))) ++ ev,
        q, List.mem_cons_of_mem _ hq, hbig, ?_, ?_, ?_⟩
      · intro r hr hlt
        rcases List.mem_cons.mp hr with rfl | hr
        · exact hlo
        · exact hfirst r hr hlt
      · rw [loadRegs, memRead_ok hlo, Act.ok_bind, hs]; simp [State.setV]
      · intro r
        rw [hV r]
        simp only [State.setV_byteAt, List.mem_cons]
        by_cases hr : r ∈ rs
        · by_cases hb : base + r.val ≤ 4095
          · simp [hr, hb]
          · have : p.val ≠ r.val := fun e => hb (e ▸ hlo)
            simp [hb, State.reg, this]
        · by_cases hqr : r = p
          · subst hqr; simp [hr, hlo, State.reg]
          · have : p.val ≠ r.val := fun e => hqr (Fin.ext e.symm)
            simp [hr, hqr, State.reg, this]
    · refine ⟨s.V, [], p, List.mem_cons_self, by omega, ?_, ?_, ?_⟩
      · intro r hr hlt
        rcases List.mem_cons.mp hr with rfl | hr
        · omega
        · have := hp r hr; omega
      · rw [loadRegs, memRead_halted (by omega), Act.halted_bind]
        simp [State.raiseAddress, State.raise]
      · intro r
        rw [if_neg]; · rfl
        rintro ⟨hr, hb⟩
        rcases List.mem_cons.mp hr with rfl | hr
        · omega
        · have := hp r hr; omega

/-! ## Windows (R145, R146) -/

theorem mem_windowRegs {x r : Reg} : r ∈ windowRegs x ↔ r.val ≤ x.val := by
  revert x r; decide

theorem windowRegs_ascending (x : Reg) : (windowRegs x).Pairwise (fun p q => p.val < q.val) := by
  revert x; decide

@[simp] theorem window_length (s : State) (x : Reg) : (s.window x).length = x.val + 1 := by
  have : ∀ x : Reg, (windowRegs x).length = x.val + 1 := by decide
  simp [State.window, this x]

theorem windowRegs_getElem? : ∀ x k : Reg, k.val ≤ x.val → (windowRegs x)[k.val]? = some k := by decide

theorem window_getD (s : State) {x k : Reg} (h : k.val ≤ x.val) : (s.window x).getD k.val 0 = s.reg k := by
  simp [State.window, List.getD_eq_getElem?_getD, windowRegs_getElem? x k h]

@[simp] theorem bcdDigits_length (v : Byte) : (bcdDigits v).length = 3 := rfl

/-- Whatever happens, a load of registers changes only the loaded registers, the events and the latch. -/
theorem loadRegs_frame (base : Nat) (rs : List Reg) (s : State) :
    ∃ V ev f inf, (loadRegs base rs s).state =
        { s with V := V, events := s.events ++ ev, fault := f, faultInfo := inf } ∧
      ∀ r : Reg, r ∉ rs → V[r.val] = s.V[r.val] := by
  induction rs generalizing s with
  | nil => exact ⟨s.V, [], s.fault, s.faultInfo, by simp [loadRegs], fun _ _ => rfl⟩
  | cons q rs ih =>
    rw [loadRegs]
    by_cases h : base + q.val ≤ 4095
    · rw [memRead_ok h, Act.ok_bind]
      obtain ⟨V, ev, f, inf, hs, hV⟩ := ih (s.setV q (s.byteAt (base + q.val)))
      refine ⟨V, changed (s.V[q.val] != s.byteAt (base + q.val)) (.regChanged q (s.byteAt (base + q.val))) ++ ev, f, inf,
        by rw [hs]; simp [State.setV], fun r hr => ?_⟩
      simp only [List.mem_cons, not_or] at hr
      rw [hV r hr.2]
      exact Vector.getElem_set_ne q.isLt r.isLt fun hc => hr.1 (Fin.ext hc.symm)
    · rw [memRead_halted (by omega), Act.halted_bind]
      exact ⟨s.V, [], some .addressOutOfBounds, BitVec.ofNat 17 (base + q.val), by
        simp [State.raiseAddress, State.raise], fun _ _ => rfl⟩

/-! ## Register writes with their notifications (R209) -/

/-- The flag-then-result write as one update of the registers. -/
theorem setFlagThenResult_update (s : State) (x : Reg) (flag : Bool) (v : Byte) : ∃ evs,
    s.setFlagThenResult x flag v =
      { s with V := (s.V.set 15 (flagByte flag)).set x.val v, events := s.events ++ evs } :=
  ⟨changed (s.V[15] != flagByte flag) (.regChanged vf (flagByte flag)) ++
    changed ((s.V.set 15 (flagByte flag))[x.val] != v) (.regChanged x v), by rw [← List.append_assoc]; rfl⟩

/-- A skip as one update of `pc`. -/
theorem skipIf_update (s : State) (c : Bool) : ∃ evs,
    s.skipIf c = { s with pc := if c then s.pc + 2 else s.pc, events := s.events ++ evs } := by
  cases c
  · exact ⟨[], by simp [State.skipIf]⟩
  · exact ⟨_, rfl⟩

/-! ## The call stack (R55, R56) -/

theorem push_ok {a : Word} (h : s.SP.val < 16) :
    push a s = .ok () { s with STACK := s.STACK.set s.SP.val a, SP := ⟨s.SP.val + 1, by omega⟩ } := dif_pos h

theorem push_full {a : Word} (h : s.SP.val = 16) : push a s = .halted (s.raiseStack .stackOverflow) :=
  dif_neg (by omega)

theorem pop_ok (h : 0 < s.SP.val) :
    pop s = .ok (s.STACK[s.SP.val - 1]'(by omega)) { s with SP := ⟨s.SP.val - 1, by omega⟩ } := dif_pos h

theorem pop_empty (h : s.SP.val = 0) : pop s = .halted (s.raiseStack .stackUnderflow) := dif_neg (by omega)

/-! ## Fetch (spec/40_cycle.md R91) -/

theorem fetch_ok (h : s.pc.toNat ≤ 4094) :
    fetch s = .ok (wordOfBytes (s.byteAt s.pc.toNat) (s.byteAt (s.pc.toNat + 1))) s := by
  rw [fetch, memRead_ok (by omega), Act.ok_bind, memRead_ok (by omega), Act.ok_bind]

theorem fetch_halted (h : 4094 < s.pc.toNat) : fetch s = .halted (s.raiseAddress (max s.pc.toNat 4096)) := by
  by_cases hb : 4096 ≤ s.pc.toNat
  · rw [fetch, memRead_halted hb, Act.halted_bind, Nat.max_eq_left hb]
  · rw [fetch, memRead_ok (by omega), Act.ok_bind, memRead_halted (by omega), Act.halted_bind]
    congr 2; omega

/-! ## Keys -/

theorem lowestKeyDown_none {keys : KeyState} : lowestKeyDown keys = none ↔ ∀ k : Key, keys[k.val] = false := by
  simp [lowestKeyDown]

theorem lowestKeyDown_some {keys : KeyState} {k : Key} (h : lowestKeyDown keys = some k) :
    keys[k.val] = true ∧ ∀ j : Key, j < k → keys[j.val] = false := by
  obtain ⟨hk, as, bs, heq, hno⟩ := List.find?_eq_some_iff_append.mp h
  refine ⟨hk, fun j hj => ?_⟩
  have hp : (List.finRange 16).Pairwise (· < ·) := by decide
  have hjm : j ∈ as ++ k :: bs := heq ▸ List.mem_finRange j
  rw [heq] at hp
  rcases List.mem_append.mp hjm with hja | hjb
  · simpa using hno j hja
  · rcases List.mem_cons.mp hjb with rfl | hjb
    · exact absurd hj (by simp)
    · exact absurd ((List.pairwise_cons.mp (List.pairwise_append.mp hp).2.1).1 j hjb) (Fin.lt_asymm hj)

end Sys2Proof.Machine
end

