-- ==== Sys2Proof/Laws/FrameBuffer.lean ====
section
/-! SUPPORT. The laws of the frame buffer (spec/45_display.md R181 to R183, R187): one pixel after a write, after a row,
after a whole sprite, and the collision bit. -/

namespace Sys2Proof.Machine

namespace FrameBuffer

theorem pixel_clear (x y : Nat) : pixel clear x y = false := by simp [pixel, clear]

theorem pixel_congr (fb : FrameBuffer) {x y x' y' : Nat} (hx : x % 64 = x' % 64) (hy : y % 32 = y' % 32) :
    pixel fb x y = pixel fb x' y' := by simp only [pixel, hx, hy]

theorem pixel_setPixel (fb : FrameBuffer) (x y px py : Nat) (v : Bool) :
    pixel (setPixel fb x y v) px py = if px % 64 = x % 64 ∧ py % 32 = y % 32 then v else pixel fb px py := by
  unfold pixel setPixel
  rw [Vector.getElem_set]
  by_cases hy : y % 32 = py % 32
  · simp only [hy, if_true, and_true]
    rw [Vector.getElem_set]
    by_cases hx : x % 64 = px % 64
    · simp [hx]
    · have : ¬ px % 64 = x % 64 := fun h => hx h.symm
      simp [hx, this]
  · rw [if_neg hy, if_neg (fun h => hy h.2.symm)]

/-- Two buffers with the same pixels are the same buffer. -/
theorem ext_pixel {a b : FrameBuffer} (h : ∀ x y, pixel a x y = pixel b x y) : a = b := by
  apply Vector.ext; intro y hy
  apply Vector.ext; intro x hx
  have := h x y
  simpa [pixel, Nat.mod_eq_of_lt hx, Nat.mod_eq_of_lt hy] using this

end FrameBuffer

open FrameBuffer

/-- The sprite's value at a screen position: some bit of it lands there (R182). -/
def spriteAt (x0 : Nat) : Nat → List Byte → Nat → Nat → Bool
  | _, [], _, _ => false
  | y, row :: rows, px, py =>
    (decide (py % 32 = y % 32) && (List.range 8).any fun b => decide ((x0 + b) % 64 = px % 64) && spriteBit row b) ||
      spriteAt x0 (y + 1) rows px py

/-- Some on-bit of the sprite lands on a lit pixel (R183). -/
def spriteHits (fb : FrameBuffer) (x0 : Nat) : Nat → List Byte → Bool
  | _, [] => false
  | y, row :: rows =>
    ((List.range 8).any fun b => spriteBit row b && pixel fb (x0 + b) y) || spriteHits fb x0 (y + 1) rows

theorem drawBit_pixel (x y : Nat) (bit : Bool) (acc : FrameBuffer × Bool) (px py : Nat) :
    pixel (drawBit x y bit acc).1 px py =
      if px % 64 = x % 64 ∧ py % 32 = y % 32 then (pixel acc.1 x y ^^ bit) else pixel acc.1 px py :=
  pixel_setPixel ..

theorem drawBit_collision (x y : Nat) (bit : Bool) (acc : FrameBuffer × Bool) :
    (drawBit x y bit acc).2 = (acc.2 || (bit && pixel acc.1 x y)) := rfl

theorem drawRow_prefix (x0 y : Nat) (row : Byte) (acc : FrameBuffer × Bool) (n : Nat) (hn : n ≤ 64) :
    (∀ px py, pixel ((List.range n).foldl (fun a b => drawBit (x0 + b) y (spriteBit row b) a) acc).1 px py =
      (pixel acc.1 px py ^^
        (decide (py % 32 = y % 32) && (List.range n).any fun b => decide ((x0 + b) % 64 = px % 64) && spriteBit row b))) ∧
    ((List.range n).foldl (fun a b => drawBit (x0 + b) y (spriteBit row b) a) acc).2 =
      (acc.2 || (List.range n).any fun b => spriteBit row b && pixel acc.1 (x0 + b) y) := by
  induction n with
  | zero => simp
  | succ n ih =>
    obtain ⟨ih1, ih2⟩ := ih (by omega)
    have hold : pixel ((List.range n).foldl (fun a b => drawBit (x0 + b) y (spriteBit row b) a) acc).1 (x0 + n) y =
        pixel acc.1 (x0 + n) y := by
      rw [ih1]
      have : ((List.range n).any fun b => decide ((x0 + b) % 64 = (x0 + n) % 64) && spriteBit row b) = false := by
        rw [List.any_eq_false]
        intro b hb
        have := List.mem_range.mp hb
        have : ¬ (x0 + b) % 64 = (x0 + n) % 64 := by omega
        simp [this]
      rw [this]; simp
    constructor
    · intro px py
      rw [List.range_succ, List.foldl_append, List.any_append]
      simp only [List.foldl_cons, List.foldl_nil, List.any_cons, List.any_nil, Bool.or_false]
      rw [drawBit_pixel, hold]
      by_cases hp : px % 64 = (x0 + n) % 64 ∧ py % 32 = y % 32
      · rw [if_pos hp, pixel_congr acc.1 hp.1.symm hp.2.symm]
        have : ((List.range n).any fun b => decide ((x0 + b) % 64 = px % 64) && spriteBit row b) = false := by
          rw [List.any_eq_false]
          intro b hb
          have := List.mem_range.mp hb
          have : ¬ (x0 + b) % 64 = px % 64 := by omega
          simp [this]
        rw [this, hp.1, hp.2]; simp
      · rw [if_neg hp, ih1]
        by_cases hy : py % 32 = y % 32
        · have hx : ¬ (x0 + n) % 64 = px % 64 := fun h => hp ⟨h.symm, hy⟩
          simp [hx]
        · simp [hy]
    · rw [List.range_succ, List.foldl_append, List.any_append]
      simp only [List.foldl_cons, List.foldl_nil, List.any_cons, List.any_nil, Bool.or_false]
      rw [drawBit_collision, hold, ih2, Bool.or_assoc]

theorem drawRow_pixel (x0 y : Nat) (row : Byte) (acc : FrameBuffer × Bool) (px py : Nat) :
    pixel (drawRow x0 y row acc).1 px py =
      (pixel acc.1 px py ^^
        (decide (py % 32 = y % 32) && (List.range 8).any fun b => decide ((x0 + b) % 64 = px % 64) && spriteBit row b)) :=
  (drawRow_prefix x0 y row acc 8 (by omega)).1 px py

theorem drawRow_collision (x0 y : Nat) (row : Byte) (acc : FrameBuffer × Bool) :
    (drawRow x0 y row acc).2 = (acc.2 || (List.range 8).any fun b => spriteBit row b && pixel acc.1 (x0 + b) y) :=
  (drawRow_prefix x0 y row acc 8 (by omega)).2

theorem spriteAt_false {x0 y : Nat} {rows : List Byte} {px py : Nat}
    (h : ∀ i < rows.length, py % 32 ≠ (y + i) % 32) : spriteAt x0 y rows px py = false := by
  induction rows generalizing y with
  | nil => rfl
  | cons row rows ih =>
    have h0 := h 0 (by simp)
    have := ih (y := y + 1) fun i hi => by
      have := h (i + 1) (by simpa using hi)
      rwa [show y + 1 + i = y + (i + 1) by omega]
    simp [spriteAt, this] at *
    intro hc; exact absurd hc h0

theorem spriteHits_congr {a b : FrameBuffer} {x0 y : Nat} {rows : List Byte}
    (h : ∀ i < rows.length, ∀ px, pixel a px (y + i) = pixel b px (y + i)) :
    spriteHits a x0 y rows = spriteHits b x0 y rows := by
  induction rows generalizing y with
  | nil => rfl
  | cons row rows ih =>
    have h0 := h 0 (by simp)
    simp only [Nat.add_zero] at h0
    have := ih (y := y + 1) fun i hi px => by
      have := h (i + 1) (by simpa using hi) px
      rwa [show y + 1 + i = y + (i + 1) by omega]
    simp only [spriteHits, this, h0]

/-- After drawing rows: each pixel is its old value XOR the sprite's bit there, and the collision bit says whether an
on-bit fell on a lit pixel. At most 32 rows, so that no two rows share a screen row. -/
theorem drawRows_spec (x0 y : Nat) (rows : List Byte) (acc : FrameBuffer × Bool) (h : rows.length ≤ 32) :
    (∀ px py, pixel (drawRows x0 y rows acc).1 px py = (pixel acc.1 px py ^^ spriteAt x0 y rows px py)) ∧
    (drawRows x0 y rows acc).2 = (acc.2 || spriteHits acc.1 x0 y rows) := by
  induction rows generalizing y acc with
  | nil => simp [drawRows, spriteAt, spriteHits]
  | cons row rows ih =>
    simp only [List.length_cons] at h
    obtain ⟨ih1, ih2⟩ := ih (y + 1) (drawRow x0 y row acc) (by omega)
    constructor
    · intro px py
      rw [drawRows, ih1, drawRow_pixel, spriteAt]
      by_cases hy : py % 32 = y % 32
      · have : spriteAt x0 (y + 1) rows px py = false :=
          spriteAt_false fun i hi => by omega
        simp [this]
      · simp [hy]
    · rw [drawRows, ih2, drawRow_collision, spriteHits, Bool.or_assoc]
      congr 2
      apply spriteHits_congr
      intro i hi px
      rw [drawRow_pixel]
      have : ¬ (y + 1 + i) % 32 = y % 32 := by omega
      simp only [this, decide_false, Bool.false_and, Bool.bne_false]

/-- `draw` (R182) pixel by pixel. -/
theorem draw_pixel (fb : FrameBuffer) (x0 y0 : Nat) (rows : List Byte) (h : rows.length ≤ 32) (px py : Nat) :
    pixel (FrameBuffer.draw fb x0 y0 rows).1 px py = (pixel fb px py ^^ spriteAt x0 y0 rows px py) :=
  (drawRows_spec x0 y0 rows (fb, false) h).1 px py

/-- The collision bit (R183). -/
theorem draw_collision (fb : FrameBuffer) (x0 y0 : Nat) (rows : List Byte) (h : rows.length ≤ 32) :
    (FrameBuffer.draw fb x0 y0 rows).2 = spriteHits fb x0 y0 rows := by
  rw [FrameBuffer.draw, (drawRows_spec x0 y0 rows (fb, false) h).2]; simp

/-- The sprite's bit at the place where its bit (i, b) lands. -/
theorem spriteAt_self {x0 y : Nat} {rows : List Byte} (h : rows.length ≤ 32) {i b : Nat} (hi : i < rows.length)
    (hb : b < 8) : spriteAt x0 y rows (x0 + b) (y + i) = spriteBit rows[i] b := by
  induction rows generalizing y i with
  | nil => simp at hi
  | cons row rows ih =>
    simp only [List.length_cons] at h hi
    rw [spriteAt]
    cases i with
    | zero =>
      have h1 : spriteAt x0 (y + 1) rows (x0 + b) (y + 0) = false := spriteAt_false fun i hi => by omega
      rw [h1, Nat.add_zero]
      simp only [decide_true, Bool.true_and, Bool.or_false, List.getElem_cons_zero]
      rw [Bool.eq_iff_iff, List.any_eq_true]
      constructor
      · rintro ⟨c, hc, hcb⟩
        have := List.mem_range.mp hc
        simp only [Bool.and_eq_true, decide_eq_true_eq] at hcb
        have : c = b := by omega
        exact this ▸ hcb.2
      · intro hs
        exact ⟨b, List.mem_range.mpr hb, by simp [hs]⟩
    | succ i =>
      have h1 : decide ((y + (i + 1)) % 32 = y % 32) = false := by simp; omega
      rw [h1, Bool.false_and, Bool.false_or, show y + (i + 1) = y + 1 + i by omega, ih (by omega) (by omega)]
      simp

theorem spriteAt_outside {x0 y : Nat} {rows : List Byte} {px py : Nat}
    (h : ∀ i < rows.length, ∀ b < 8, (x0 + b) % 64 ≠ px % 64 ∨ (y + i) % 32 ≠ py % 32) :
    spriteAt x0 y rows px py = false := by
  induction rows generalizing y with
  | nil => rfl
  | cons row rows ih =>
    have h0 := h 0 (by simp)
    have h1 := ih (y := y + 1) fun i hi b hb => by
      have := h (i + 1) (by simpa using hi) b hb
      rwa [show y + 1 + i = y + (i + 1) by omega]
    rw [spriteAt, h1, Bool.or_false, Bool.and_eq_false_iff]
    by_cases hy : py % 32 = y % 32
    · right
      rw [List.any_eq_false]
      intro b hb
      have := h0 b (List.mem_range.mp hb)
      simp only [Nat.add_zero] at this
      have : ¬ (x0 + b) % 64 = px % 64 := by omega
      simp [this]
    · left; simpa using hy

theorem spriteHits_iff (fb : FrameBuffer) (x0 y : Nat) (rows : List Byte) :
    spriteHits fb x0 y rows = true ↔
      ∃ i, ∃ h : i < rows.length, ∃ b < 8, spriteBit rows[i] b = true ∧ pixel fb (x0 + b) (y + i) = true := by
  induction rows generalizing y with
  | nil => simp [spriteHits]
  | cons row rows ih =>
    rw [spriteHits, Bool.or_eq_true, ih, List.any_eq_true]
    constructor
    · rintro (⟨b, hb, hh⟩ | ⟨i, hi, b, hb, hh⟩)
      · exact ⟨0, by simp, b, List.mem_range.mp hb, by simpa using hh⟩
      · exact ⟨i + 1, by simpa using hi, b, hb, by
          rw [show y + (i + 1) = y + 1 + i by omega]; simpa using hh⟩
    · rintro ⟨i, hi, b, hb, hh⟩
      cases i with
      | zero => exact .inl ⟨b, List.mem_range.mpr hb, by simpa using hh⟩
      | succ i =>
        refine .inr ⟨i, by simpa using hi, b, hb, ?_⟩
        rw [show y + 1 + i = y + (i + 1) by omega]; simpa using hh

end Sys2Proof.Machine
end

