-- ==== Sys2Proof/Laws/PerInstr.lean ====
section
/-! SUPPORT. Per-instruction families: one lemma per constructor of Instr. `RoundTrip` says that the decoder reads an
instruction's own word back, with every operand. -/

namespace Sys2Proof.Laws.RoundTrip

/-- The word written for a well-formed instruction decodes to it. -/
def Statement (i : Instr) : Prop := WellFormed i → decodeWord (encode i) = .instr i

theorem nnn_ne {nnn k : Addr12} (h : nnn ≠ k) : wordNNN 0x0 nnn ≠ wordNNN 0x0 k := fun hw => by
  have := congrArg nnnField hw
  rw [nnnField_NNN (by decide), nnnField_NNN (by decide)] at this
  exact h this

theorem cls : Statement .cls := fun _ => rfl

theorem ret : Statement .ret := fun _ => rfl

theorem sys (nnn : Addr12) : Statement (.sys nnn) := fun h => by
  have h' : nnn ≠ 0x0E0#12 ∧ nnn ≠ 0x0EE#12 := by simpa [WellFormed, Instr.isWellFormed] using h
  exact (decodeWord_zero (opField_NNN (by decide) nnn) (nnn_ne h'.1) (nnn_ne h'.2)).trans
    (by rw [nnnField_NNN (by decide)])

theorem jp (nnn : Addr12) : Statement (.jp nnn) := fun _ =>
  (decodeWord_jp (opField_NNN (by decide) nnn)).trans (by rw [nnnField_NNN (by decide)])

theorem call (nnn : Addr12) : Statement (.call nnn) := fun _ =>
  (decodeWord_call (opField_NNN (by decide) nnn)).trans (by rw [nnnField_NNN (by decide)])

theorem seImm (x : Reg) (nn : Byte) : Statement (.seImm x nn) := fun _ =>
  (decodeWord_seImm (opField_XNN (by decide) x nn)).trans (by rw [xField_XNN (by decide), nnField_XNN (by decide)])

theorem sneImm (x : Reg) (nn : Byte) : Statement (.sneImm x nn) := fun _ =>
  (decodeWord_sneImm (opField_XNN (by decide) x nn)).trans (by rw [xField_XNN (by decide), nnField_XNN (by decide)])

theorem seReg (x : Reg) (y : Reg) : Statement (.seReg x y) := fun _ =>
  (decodeWord_seReg (opField_XYN (by decide) x y 0)).trans (by
    rw [if_pos (nField_XYN (by decide) ..), xField_XYN (by decide), yField_XYN (by decide)])

theorem ldImm (x : Reg) (nn : Byte) : Statement (.ldImm x nn) := fun _ =>
  (decodeWord_ldImm (opField_XNN (by decide) x nn)).trans (by rw [xField_XNN (by decide), nnField_XNN (by decide)])

theorem addImm (x : Reg) (nn : Byte) : Statement (.addImm x nn) := fun _ =>
  (decodeWord_addImm (opField_XNN (by decide) x nn)).trans (by rw [xField_XNN (by decide), nnField_XNN (by decide)])

theorem ldReg (x : Reg) (y : Reg) : Statement (.ldReg x y) := fun _ =>
  decodeWord_XY8 x y _ .ldReg fun _ h => by simp [decodeAlu, h]

theorem orReg (x : Reg) (y : Reg) : Statement (.orReg x y) := fun _ =>
  decodeWord_XY8 x y _ .orReg fun _ h => by simp [decodeAlu, h]

theorem andReg (x : Reg) (y : Reg) : Statement (.andReg x y) := fun _ =>
  decodeWord_XY8 x y _ .andReg fun _ h => by simp [decodeAlu, h]

theorem xorReg (x : Reg) (y : Reg) : Statement (.xorReg x y) := fun _ =>
  decodeWord_XY8 x y _ .xorReg fun _ h => by simp [decodeAlu, h]

theorem addReg (x : Reg) (y : Reg) : Statement (.addReg x y) := fun _ =>
  decodeWord_XY8 x y _ .addReg fun _ h => by simp [decodeAlu, h]

theorem subReg (x : Reg) (y : Reg) : Statement (.subReg x y) := fun _ =>
  decodeWord_XY8 x y _ .subReg fun _ h => by simp [decodeAlu, h]

theorem shrReg (x : Reg) (y : Reg) : Statement (.shrReg x y) := fun _ =>
  decodeWord_XY8 x y _ .shrReg fun _ h => by simp [decodeAlu, h]

theorem subnReg (x : Reg) (y : Reg) : Statement (.subnReg x y) := fun _ =>
  decodeWord_XY8 x y _ .subnReg fun _ h => by simp [decodeAlu, h]

theorem shlReg (x : Reg) (y : Reg) : Statement (.shlReg x y) := fun _ =>
  decodeWord_XY8 x y _ .shlReg fun _ h => by simp [decodeAlu, h]

theorem sneReg (x : Reg) (y : Reg) : Statement (.sneReg x y) := fun _ =>
  (decodeWord_sneReg (opField_XYN (by decide) x y 0)).trans (by
    rw [if_pos (nField_XYN (by decide) ..), xField_XYN (by decide), yField_XYN (by decide)])

theorem ldI (nnn : Addr12) : Statement (.ldI nnn) := fun _ =>
  (decodeWord_ldI (opField_NNN (by decide) nnn)).trans (by rw [nnnField_NNN (by decide)])

theorem jpV0 (nnn : Addr12) : Statement (.jpV0 nnn) := fun _ =>
  (decodeWord_jpV0 (opField_NNN (by decide) nnn)).trans (by rw [nnnField_NNN (by decide)])

theorem rnd (x : Reg) (nn : Byte) : Statement (.rnd x nn) := fun _ =>
  (decodeWord_rnd (opField_XNN (by decide) x nn)).trans (by rw [xField_XNN (by decide), nnField_XNN (by decide)])

theorem drw (x : Reg) (y : Reg) (n : Fin 16) : Statement (.drw x y n) := fun _ =>
  (decodeWord_drw (opField_XYN (by decide) x y n)).trans (by
    rw [xField_XYN (by decide), yField_XYN (by decide), nField_XYN (by decide)])

theorem skp (x : Reg) : Statement (.skp x) := fun _ =>
  decodeWord_XE x _ .skp fun _ h => by simp [decodeKey, h]

theorem sknp (x : Reg) : Statement (.sknp x) := fun _ =>
  decodeWord_XE x _ .sknp fun _ h => by simp [decodeKey, h]

theorem ldVxDT (x : Reg) : Statement (.ldVxDT x) := fun _ =>
  decodeWord_XF x _ .ldVxDT fun _ h => by simp [decodeMisc, h]

theorem ldVxK (x : Reg) : Statement (.ldVxK x) := fun _ =>
  decodeWord_XF x _ .ldVxK fun _ h => by simp [decodeMisc, h]

theorem ldDTVx (x : Reg) : Statement (.ldDTVx x) := fun _ =>
  decodeWord_XF x _ .ldDTVx fun _ h => by simp [decodeMisc, h]

theorem ldSTVx (x : Reg) : Statement (.ldSTVx x) := fun _ =>
  decodeWord_XF x _ .ldSTVx fun _ h => by simp [decodeMisc, h]

theorem addI (x : Reg) : Statement (.addI x) := fun _ =>
  decodeWord_XF x _ .addI fun _ h => by simp [decodeMisc, h]

theorem ldF (x : Reg) : Statement (.ldF x) := fun _ =>
  decodeWord_XF x _ .ldF fun _ h => by simp [decodeMisc, h]

theorem ldB (x : Reg) : Statement (.ldB x) := fun _ =>
  decodeWord_XF x _ .ldB fun _ h => by simp [decodeMisc, h]

theorem ldMemVx (x : Reg) : Statement (.ldMemVx x) := fun _ =>
  decodeWord_XF x _ .ldMemVx fun _ h => by simp [decodeMisc, h]

theorem ldVxMem (x : Reg) : Statement (.ldVxMem x) := fun _ =>
  decodeWord_XF x _ .ldVxMem fun _ h => by simp [decodeMisc, h]

end Sys2Proof.Laws.RoundTrip
end

