-- ==== Sys2Proof/Laws/Step.lean ====
section
/-! SUPPORT. What one step of a running core does, said once: the fetch, the advance and the execution of the word
(spec/40_cycle.md R90 to R94); and one more step of a run. -/

namespace Sys2Proof.Machine

variable {s : State}

/-- On the CPU's turn the step is the CPU's, with a new list of events. -/
theorem step_cpu (h : s.CpuTurn) : step s = cpuStep { s with schedule := s.schedule.tail, events := [] } := by
  rcases h with h | ⟨r, h⟩
  · simp [step, h, State.clearEvents]
  · simp [step, h, perform, State.clearEvents]

/-- A running core at a fetchable address executes the word there, `pc` already advanced. -/
theorem step_word (h : s.Running) (hpc : s.pc.toNat ≤ 4094) : step s =
    execWord (s.byteAt s.pc.toNat ++ s.byteAt (s.pc.toNat + 1))
      { s with pc := s.pc + 2, schedule := s.schedule.tail, events := [.pcChanged (s.pc + 2)] } := by
  rw [step_cpu h.turn, cpuStep]
  simp only [h.notHalted]
  rw [fetch_ok (by exact hpc)]
  simp [State.advance, State.setPc, changed, State.byteAt, wordOfBytes]

/-- An illegal word is reported as it is. -/
theorem decodeWord_illegal {w v : Word} (h : decodeWord w = .illegal v) : v = w := by
  unfold decodeWord decodeFamily decodeAlu decodeKey decodeMisc at h
  repeat' (split at h)
  all_goals first | (cases h; rfl) | (cases h)

/-- One more step of a run. -/
theorem run_succ {M : Host.Core} {n : Nat} {s u : M.State} (h : M.step s = .next u) : M.run (n + 1) s = M.run n u := by
  rw [Host.Core.run, h]

end Sys2Proof.Machine
end

