-- ==== Sys2Proof/Tests/Slice0.lean ====
section
/-! SUPPORT. Tests. Expected results come from spec/95_test_vectors.md (its vector is named in each test's comment) or are
worked by hand from the rule named. Part 1: the smoke test of WellFormed. Part 2: every constructor's decoding, by a word
written out bit by bit from the pattern of spec/30_encoding.md R74. Part 3: one step of each instruction. Part 4: for
every statement of Certificates/Slice0/Obligations.lean that has hypotheses, a concrete case that meets them. -/

namespace Sys2Proof.Tests

open Sys2Proof Sys2Proof.Machine

/-! ## Helpers -/

/-- The reset state with some registers set. -/
def start (l : List (Reg × Byte)) : State :=
  { State.reset with V := l.foldl (fun V p => V.set p.1.val p.2) State.reset.V }

/-- A memory with some bytes written after reset. -/
def bytes (l : List (Nat × Byte)) : Memory := l.foldl (fun m p => Memory.write defaultFontBase m p.1 p.2) []

/-- A frame buffer with some pixels lit. -/
def lit (l : List (Nat × Nat)) : FrameBuffer := l.foldl (fun fb p => FrameBuffer.setPixel fb p.1 p.2 true) FrameBuffer.clear

/-- Some keys down. -/
def keysDown (l : List Key) : KeyState := l.foldl (fun ks k => ks.set k.val true) State.reset.KEY

/-- The state an outcome holds; the given one if it holds none. -/
def nextOr (s : State) : StepOutcome → State
  | .next t => t
  | .fault _ => s
  | .refused _ => s

/-- The state after one step with a word at `pc`. -/
def after (s : State) (w : Nat) : State := nextOr s (step (s.withFetchWord 16 w))

/-! ## Part 1. WellFormed -/

/-- `SYS` whose word is `CLS` is no `SYS` (R74 row 3). -/
theorem test_wellFormed_refuses_sys_0E0 : ¬WellFormed (.sys 0x0E0#12) := by decide
/-- `SYS` whose word is `RET` is no `SYS` (R74 row 3). -/
theorem test_wellFormed_refuses_sys_0EE : ¬WellFormed (.sys 0x0EE#12) := by decide
theorem test_wellFormed_accepts : WellFormed (.sys 0x0EF#12) ∧ WellFormed (.drw 15 15 15) := by decide

/-! ## Part 2. Decoding -/

/-- R74 rows of the control-flow family. -/
theorem test_decode_control_flow :
    decodeWord 0b0000000011101110#16 = .instr .ret ∧
    decodeWord 0b0000000100100011#16 = .instr (.sys 0x123#12) ∧
    decodeWord 0b0001101010111100#16 = .instr (.jp 0xABC#12) ∧
    decodeWord 0b0010001000010000#16 = .instr (.call 0x210#12) ∧
    decodeWord 0b0011000100000101#16 = .instr (.seImm 1 0x05#8) ∧
    decodeWord 0b0100001000000110#16 = .instr (.sneImm 2 0x06#8) ∧
    decodeWord 0b0101001101000000#16 = .instr (.seReg 3 4) ∧
    decodeWord 0b1001001101000000#16 = .instr (.sneReg 3 4) ∧
    decodeWord 0b1011001100000000#16 = .instr (.jpV0 0x300#12) := by decide
/-- R74 rows of the arithmetic family. -/
theorem test_decode_arith :
    decodeWord 0b0110101001010101#16 = .instr (.ldImm 10 0x55#8) ∧
    decodeWord 0b0111000111111111#16 = .instr (.addImm 1 0xFF#8) ∧
    decodeWord 0b1000001111110000#16 = .instr (.ldReg 3 15) ∧
    decodeWord 0b1000000100100001#16 = .instr (.orReg 1 2) ∧
    decodeWord 0b1000000100100010#16 = .instr (.andReg 1 2) ∧
    decodeWord 0b1000000100100011#16 = .instr (.xorReg 1 2) ∧
    decodeWord 0b1000000100100100#16 = .instr (.addReg 1 2) ∧
    decodeWord 0b1000000100100101#16 = .instr (.subReg 1 2) ∧
    decodeWord 0b1000000100100110#16 = .instr (.shrReg 1 2) ∧
    decodeWord 0b1000000100100111#16 = .instr (.subnReg 1 2) ∧
    decodeWord 0b1000000100101110#16 = .instr (.shlReg 1 2) := by decide
/-- R74 rows of the index and memory family. -/
theorem test_decode_index :
    decodeWord 0b1010001100000000#16 = .instr (.ldI 0x300#12) ∧
    decodeWord 0b1111001000011110#16 = .instr (.addI 2) ∧
    decodeWord 0b1111000000101001#16 = .instr (.ldF 0) ∧
    decodeWord 0b1111000000110011#16 = .instr (.ldB 0) ∧
    decodeWord 0b1111000101010101#16 = .instr (.ldMemVx 1) ∧
    decodeWord 0b1111111001100101#16 = .instr (.ldVxMem 14) := by decide
/-- R74 rows of the timer, random and key family, and of the display family. -/
theorem test_decode_timers_display :
    decodeWord 0b1111001100000111#16 = .instr (.ldVxDT 3) ∧
    decodeWord 0b1111000000010101#16 = .instr (.ldDTVx 0) ∧
    decodeWord 0b1111000000011000#16 = .instr (.ldSTVx 0) ∧
    decodeWord 0b1100001100001111#16 = .instr (.rnd 3 0x0F#8) ∧
    decodeWord 0b1110000110011110#16 = .instr (.skp 1) ∧
    decodeWord 0b1110000110100001#16 = .instr (.sknp 1) ∧
    decodeWord 0b1111001000001010#16 = .instr (.ldVxK 2) ∧
    decodeWord 0b0000000011100000#16 = .instr .cls ∧
    decodeWord 0b1101000100100101#16 = .instr (.drw 1 2 5) := by decide
/-- EN-6 to EN-10: the words outside the set. -/
theorem test_decode_illegal :
    ([0x5121#16, 0x512F#16, 0x9121#16, 0x8128#16, 0x8129#16, 0x812A#16, 0x812B#16, 0x812C#16, 0x812D#16, 0x812F#16] ++
     [0xE19F#16, 0xE1A0#16, 0xE100#16, 0xE1FF#16, 0xF100#16, 0xF108#16, 0xF10B#16, 0xF11F#16, 0xF130#16, 0xF175#16] ++
     [0xF185#16, 0xF1FF#16]).all (fun w => decodeWord w == .illegal w) = true := by decide
/-- EN-4: the first byte is the high byte; one byte is no instruction. -/
theorem test_decode_bytes :
    decode [0x6A#8, 0x55#8, 0x12#8] = .instr (.ldImm 10 0x55#8) [0x12#8] ∧ decode [0x6A#8] = .truncated ∧
    encodeBytes (.ldImm 10 0x55#8) = [0x6A#8, 0x55#8] ∧ decodeTableWord 16 0x6A55 = some (.ldImm 10 0x55#8) := by decide

/-! ## Part 3. One step -/

/-- CF-1, CF-2: the literal target; a self-jump. -/
theorem test_jp : (after (start []) 0x1ABC).pc = 0x0ABC#16 ∧ (after (start []) 0x1200).pc = 0x0200#16 := by decide
/-- CF-5. -/
theorem test_call : let t := after { start [] with pc := 0x204#16 } 0x2210
    t.pc = 0x210#16 ∧ t.SP = 1 ∧ t.STACK[0] = 0x206#16 ∧ t.fault = none := by decide
/-- CF-6. -/
theorem test_call_full : let t := after { start [] with pc := 0x204#16, SP := 16 } 0x2210
    t.pc = 0x206#16 ∧ t.SP = 16 ∧ t.fault = some .stackOverflow ∧ t.STACK = State.reset.STACK := by decide
/-- CF-9: the entry pushed last. -/
theorem test_ret : let t := after { start [] with SP := 2, STACK := (State.reset.STACK.set 0 0x202#16).set 1 0x302#16 } 0x00EE
    t.pc = 0x302#16 ∧ t.SP = 1 := by decide
/-- CF-8. -/
theorem test_ret_empty : let t := after (start []) 0x00EE
    t.pc = 0x202#16 ∧ t.SP = 0 ∧ t.fault = some .stackUnderflow := by decide
/-- CF-10, CF-11. -/
theorem test_seImm : (after { start [] with pc := 0x208#16 } 0x3100).pc = 0x20C#16 ∧
    (after { start [(1, 1#8)] with pc := 0x208#16 } 0x3100).pc = 0x20A#16 := by decide
/-- CF-12, CF-13. -/
theorem test_sneImm : (after { start [(2, 5#8)] with pc := 0x300#16 } 0x4205).pc = 0x302#16 ∧
    (after { start [(2, 5#8)] with pc := 0x300#16 } 0x4206).pc = 0x304#16 := by decide
/-- CF-14, CF-15. -/
theorem test_seReg : (after { start [(3, 0x7F#8), (4, 0x7F#8)] with pc := 0x220#16 } 0x5340).pc = 0x224#16 ∧
    (after { start [(3, 1#8), (4, 2#8)] with pc := 0x220#16 } 0x5340).pc = 0x222#16 := by decide
/-- CF-17, CF-18. -/
theorem test_sneReg : (after { start [(3, 1#8), (4, 2#8)] with pc := 0x220#16 } 0x9340).pc = 0x224#16 ∧
    (after { start [(3, 1#8)] with pc := 0x220#16 } 0x9330).pc = 0x222#16 := by decide
/-- CF-21, CF-22: no wrap at 12 bits; the offset is V0. -/
theorem test_jpV0 : (after { start [(0, 2#8)] with pc := 0x202#16 } 0xBFFF).pc = 0x1001#16 ∧
    (after (start [(0, 0xFF#8), (3, 0x11#8)]) 0xB300).pc = 0x3FF#16 := by decide
/-- CF-23, EN-6. -/
theorem test_sys : let t := after (start []) 0x0123
    t.fault = some .unknownOpcode ∧ t.faultInfo = 0x0123#17 ∧ t.pc = 0x202#16 := by decide
/-- EN-7 at the step. -/
theorem test_illegal_word : let t := after (start []) 0x5121
    t.fault = some .unknownOpcode ∧ t.faultInfo = 0x5121#17 ∧ t.pc = 0x202#16 := by decide

/-- AL-1, AL-2. -/
theorem test_ldImm : (after (start []) 0x6A55).V[10] = 0x55#8 ∧ (after (start [(15, 1#8)]) 0x6F00).V[15] = 0#8 := by decide
/-- AL-3, AL-4: no carry flag. -/
theorem test_addImm : (after (start [(1, 5#8)]) 0x71FF).V[1] = 4#8 ∧
    let t := after (start [(1, 0xFF#8)]) 0x7101; t.V[1] = 0#8 ∧ t.V[15] = 0#8 := by decide
/-- AL-7. -/
theorem test_ldReg : (after (start [(15, 1#8)]) 0x83F0).V[3] = 1#8 := by decide
/-- AL-8. -/
theorem test_orReg : let t := after (start [(1, 0xF0#8), (2, 0x0F#8), (15, 1#8)]) 0x8121
    t.V[1] = 0xFF#8 ∧ t.V[15] = 1#8 := by decide
/-- AL-9. -/
theorem test_andReg : let t := after (start [(1, 0xF3#8), (2, 0x3C#8), (15, 1#8)]) 0x8122
    t.V[1] = 0x30#8 ∧ t.V[15] = 1#8 := by decide
/-- AL-10. -/
theorem test_xorReg : let t := after (start [(1, 0xFF#8), (2, 0x0F#8), (15, 1#8)]) 0x8123
    t.V[1] = 0xF0#8 ∧ t.V[15] = 1#8 := by decide
/-- S7, AL-15. -/
theorem test_addReg : (let t := after (start [(1, 0xFA#8), (2, 0x0A#8)]) 0x8124; t.V[1] = 4#8 ∧ t.V[15] = 1#8) ∧
    let t := after (start [(1, 0x80#8), (2, 0x7F#8), (15, 1#8)]) 0x8124; t.V[1] = 0xFF#8 ∧ t.V[15] = 0#8 := by decide
/-- AL-17, AL-18: VF as source and as destination. -/
theorem test_addReg_vf : (let t := after (start [(1, 0xFA#8), (15, 0x0A#8)]) 0x81F4; t.V[1] = 4#8 ∧ t.V[15] = 1#8) ∧
    (after (start [(15, 0xC8#8), (1, 0x64#8)]) 0x8F14).V[15] = 0x2C#8 := by decide
/-- S8. -/
theorem test_subReg : (let t := after (start [(1, 0x0A#8), (2, 3#8)]) 0x8125; t.V[1] = 7#8 ∧ t.V[15] = 1#8) ∧
    let t := after (start [(1, 3#8), (2, 0x0A#8)]) 0x8125; t.V[1] = 0xF9#8 ∧ t.V[15] = 0#8 := by decide
/-- AL-20, AL-24: equal operands; VF as destination. -/
theorem test_subReg_corners : (let t := after (start [(1, 7#8), (2, 7#8)]) 0x8125; t.V[1] = 0#8 ∧ t.V[15] = 1#8) ∧
    (after (start [(15, 3#8), (1, 5#8)]) 0x8F15).V[15] = 0xFE#8 := by decide
/-- AL-26, AL-27. -/
theorem test_subnReg : (let t := after (start [(1, 3#8), (2, 0x0A#8)]) 0x8127; t.V[1] = 7#8 ∧ t.V[15] = 1#8) ∧
    let t := after (start [(1, 0x0A#8), (2, 3#8)]) 0x8127; t.V[1] = 0xF9#8 ∧ t.V[15] = 0#8 := by decide
/-- AL-30, AL-35. -/
theorem test_shrReg : (let t := after (start [(1, 0xAA#8), (2, 5#8)]) 0x8126
      t.V[1] = 2#8 ∧ t.V[15] = 1#8 ∧ t.V[2] = 5#8) ∧
    (after (start [(15, 6#8)]) 0x8FF6).V[15] = 3#8 := by decide
/-- AL-38, AL-44. -/
theorem test_shlReg : (let t := after (start [(1, 0xAA#8), (2, 0x81#8)]) 0x812E
      t.V[1] = 2#8 ∧ t.V[15] = 1#8 ∧ t.V[2] = 0x81#8) ∧
    (after (start [(1, 0x41#8)]) 0x8F1E).V[15] = 0x82#8 := by decide

/-- IM-2. -/
theorem test_ldI : (after (start []) 0xAFFF).I = 0x0FFF#16 := by decide
/-- IM-4, IM-4b. -/
theorem test_addI : (let t := after { start [(2, 1#8)] with I := 0x0FFF#16 } 0xF21E
      t.I = 0x1000#16 ∧ t.V[15] = 0#8 ∧ t.fault = none) ∧
    (after { start [(2, 1#8)] with I := 0xFFFF#16 } 0xF21E).I = 0#16 := by decide
/-- IM-5, IM-7. -/
theorem test_ldF : (after (start [(0, 3#8)]) 0xF029).I = 0x005F#16 ∧ (after (start [(0, 0x1A#8)]) 0xF029).I = 0x0082#16 := by
  decide
/-- IM-8. -/
theorem test_ldB : let t := after { start [(0, 254#8)] with I := 0x300#16 } 0xF033
    t.byteAt 0x300 = 2#8 ∧ t.byteAt 0x301 = 5#8 ∧ t.byteAt 0x302 = 4#8 ∧ t.I = 0x300#16 := by decide
/-- IM-10. -/
theorem test_ldB_edge : let t := after { start [(0, 255#8)] with I := 0xFFE#16, pc := 0x204#16 } 0xF033
    t.byteAt 0xFFE = 2#8 ∧ t.byteAt 0xFFF = 5#8 ∧ t.fault = some .addressOutOfBounds ∧ t.faultInfo = 0x1000#17 ∧
    t.pc = 0x206#16 := by decide
/-- IM-12. -/
theorem test_ldMemVx : let t := after { start [(0, 0x6A#8), (1, 0x55#8), (2, 0x77#8)] with I := 0x208#16 } 0xF155
    t.byteAt 0x208 = 0x6A#8 ∧ t.byteAt 0x209 = 0x55#8 ∧ t.byteAt 0x20A = 0#8 ∧ t.I = 0x208#16 := by decide
/-- IM-15. -/
theorem test_ldMemVx_edge : let t := after { start [(0, 0x11#8), (1, 0x22#8), (2, 0x33#8)] with I := 0xFFE#16 } 0xF255
    t.byteAt 0xFFE = 0x11#8 ∧ t.byteAt 0xFFF = 0x22#8 ∧ t.fault = some .addressOutOfBounds ∧ t.faultInfo = 0x1000#17 := by
  decide
/-- IM-17: the glyph "0". -/
theorem test_ldVxMem : let t := after { start [(5, 9#8)] with I := 0x050#16 } 0xF465
    t.V[0] = 0xF0#8 ∧ t.V[1] = 0x90#8 ∧ t.V[4] = 0xF0#8 ∧ t.V[5] = 9#8 ∧ t.I = 0x050#16 := by decide
/-- IM-18. -/
theorem test_ldVxMem_edge : let t := after { start [(1, 9#8)] with I := 0xFFF#16, mem := bytes [(0xFFF, 0x77#8)] } 0xF165
    t.V[0] = 0x77#8 ∧ t.V[1] = 9#8 ∧ t.fault = some .addressOutOfBounds ∧ t.faultInfo = 0x1000#17 := by decide

/-- TR-5. -/
theorem test_ldVxDT : let t := after { start [] with DT := 0x2A#8 } 0xF307; t.V[3] = 0x2A#8 ∧ t.DT = 0x2A#8 := by decide
/-- TR-6. -/
theorem test_ldDTVx : (after (start [(0, 10#8)]) 0xF015).DT = 10#8 := by decide
/-- TR-7, TR-8. -/
theorem test_ldSTVx : (let t := after (start [(0, 10#8)]) 0xF018
      t.ST = 10#8 ∧ t.events = [.pcChanged 0x202#16, .toneStart] ∧ t.soundActive = true) ∧
    let t := after { start [(0, 10#8)] with ST := 3#8 } 0xF018; t.ST = 10#8 ∧ t.events = [.pcChanged 0x202#16] := by decide
/-- TR-12, TR-13: whatever the draw is. -/
theorem test_rnd : (after (start [(3, 9#8)]) 0xC30F).V[3] = Config.rand8 0 &&& 0x0F#8 ∧
    (after (start [(3, 9#8)]) 0xC300).V[3] = Config.rand8 0 &&& 0x00#8 ∧ (after (start []) 0xC30F).draws = 1 :=
  ⟨rfl, rfl, rfl⟩
/-- TR-17, TR-20. -/
theorem test_skp : (after { start [(1, 5#8)] with pc := 0x230#16, KEY := keysDown [4, 6] } 0xE19E).pc = 0x232#16 ∧
    (after { start [(1, 0x25#8)] with pc := 0x230#16, KEY := keysDown [5] } 0xE19E).pc = 0x234#16 := by decide
/-- TR-18, TR-19. -/
theorem test_sknp : (after { start [(1, 5#8)] with pc := 0x230#16, KEY := keysDown [5] } 0xE1A1).pc = 0x232#16 ∧
    (after { start [(1, 5#8)] with pc := 0x230#16 } 0xE1A1).pc = 0x234#16 := by decide
/-- TR-21. -/
theorem test_ldVxK_waits : let t := after { start [(2, 9#8)] with pc := 0x208#16 } 0xF20A
    t.pc = 0x208#16 ∧ t.V[2] = 9#8 := by decide
/-- TR-23, TR-25. -/
theorem test_ldVxK : (let t := after { start [] with pc := 0x208#16, KEY := keysDown [9, 4] } 0xF20A
      t.pc = 0x20A#16 ∧ t.V[2] = 4#8) ∧
    (after { start [(2, 9#8)] with KEY := keysDown [0] } 0xF20A).V[2] = 0#8 := by decide
/-- TR-1, TR-2, TR-4: the tick, at zero and while halted. -/
theorem test_tick : (let t := nextOr State.reset (step
      { State.reset with DT := 3#8, ST := 1#8, fault := some .unknownOpcode, schedule := [.tick] })
      t.DT = 2#8 ∧ t.ST = 0#8 ∧ t.soundActive = false) ∧
    (nextOr State.reset (step { State.reset with schedule := [.tick] })).DT = 0#8 := by decide

/-- DP-1. -/
theorem test_cls : let t := after { start [(15, 7#8)] with FB := lit [(0, 0), (63, 31)] } 0x00E0
    t.FB = FrameBuffer.clear ∧ t.V[15] = 7#8 ∧ t.events = [.pcChanged 0x202#16, .redraw] := by decide +kernel
/-- DP-4, DP-3: the horizontal wrap; the second draw erases and collides. -/
theorem test_drw :
    let s := { start [(0, 60#8)] with I := 0x300#16, mem := bytes [(0x300, 0xFF#8)] }
    let t := after s 0xD011
    t.FB = lit [(60, 0), (61, 0), (62, 0), (63, 0), (0, 0), (1, 0), (2, 0), (3, 0)] ∧ t.V[15] = 0#8 ∧
    let u := after { t with pc := 0x200#16 } 0xD011
    u.FB = FrameBuffer.clear ∧ u.V[15] = 1#8 := by decide +kernel
/-- DP-12, DP-13, DP-14: no row; a row outside memory; VF as the column. -/
theorem test_drw_corners :
    (let t := after { start [(15, 1#8)] with I := 0xFFFF#16 } 0xD010;
      t.FB = FrameBuffer.clear ∧ t.V[15] = 0#8 ∧ t.fault = none ∧ Event.redraw ∈ t.events) ∧
    (let t := after { start [(15, 1#8)] with I := 0xFFF#16, mem := bytes [(0xFFF, 0xFF#8)] } 0xD002;
      t.FB = FrameBuffer.clear ∧ t.V[15] = 1#8 ∧ t.fault = some .addressOutOfBounds ∧ t.faultInfo = 0x1000#17 ∧
      Event.redraw ∉ t.events) ∧
    let t := after { start [(15, 5#8)] with I := 0x300#16, mem := bytes [(0x300, 0x80#8)] } 0xDF11;
    t.FB = lit [(5, 0)] ∧ t.V[15] = 0#8 := by decide +kernel

/-- FT-1, FT-2, FT-3: the end of memory. -/
theorem test_fetch_edge :
    (let t := after { start [] with pc := 0xFFE#16 } 0x6005; t.V[0] = 5#8 ∧ t.pc = 0x1000#16 ∧ t.fault = none) ∧
    (let t := nextOr State.reset (step { State.reset with pc := 0x1000#16 });
      t.fault = some .addressOutOfBounds ∧ t.faultInfo = 0x1000#17 ∧ t.pc = 0x1000#16) ∧
    let t := nextOr State.reset (step { State.reset with pc := 0xFFF#16 });
    t.fault = some .addressOutOfBounds ∧ t.faultInfo = 0x1000#17 ∧ t.pc = 0xFFF#16 := by decide
/-- FT-6: the step after a reset with nothing loaded. -/
theorem test_step_after_reset : let t := nextOr State.reset (step State.reset)
    t.fault = some .unknownOpcode ∧ t.faultInfo = 0#17 ∧ t.pc = 0x202#16 := by decide
/-- S10: a boot with a program. -/
theorem test_boot : let t := nextOr State.reset (step { start [(3, 1#8)] with schedule := [.boot [0x12#8, 0x00#8]] })
    t.byteAt 0x200 = 0x12#8 ∧ t.byteAt 0x201 = 0#8 ∧ t.byteAt 0x050 = 0xF0#8 ∧ t.V[3] = 0#8 ∧ t.pc = 0x200#16 := by decide
/-- CN-2, CN-4: the notifications in order. -/
theorem test_notifications :
    (after (start [(1, 5#8)]) 0x6106).events = [.pcChanged 0x202#16, .regChanged 1 6#8] ∧
    (after (start [(1, 0xFA#8), (2, 0x0A#8), (15, 1#8)]) 0x8124).events = [.pcChanged 0x202#16, .regChanged 1 4#8] := by
  decide
/-- FT-8: the codes of the `fault` output. -/
theorem test_faultCode : faultCode none = 0 ∧ faultCode (some .addressOutOfBounds) = 1 ∧
    faultCode (some .stackUnderflow) = 2 ∧ faultCode (some .stackOverflow) = 3 ∧ faultCode (some .unknownOpcode) = 4 := by
  decide

/-! ## Part 4. Witnesses for the hypotheses of the statements -/

/-- The reset state with a word where the next step fetches it, at a chosen address. -/
def placed (pc : Word) (w : Nat) : State := State.withFetchWord { State.reset with pc := pc } 16 w

theorem witness_DecodeOfEncodeIsTheInstruction :
    WellFormed (.sys 0xFFF#12) ∧ WellFormed (.drw 15 15 15) ∧ WellFormed (.ldVxMem 15) := by decide
theorem witness_EveryDecodedWordIsItsEncoding : decodeWord 0xFF65#16 = .instr (.ldVxMem 15) := by decide
/-- A word for each line of R76's table, and one for none. -/
theorem witness_IllegalWordsRaiseUnknownOpcode :
    ((0x0000#16).toNat / 4096 = 0 ∧ 0x0000#16 ≠ 0x00E0#16 ∧ 0x0000#16 ≠ 0x00EE#16) ∧
    ((0x512F#16).toNat / 4096 = 5 ∧ (0x512F#16).toNat % 16 ≠ 0) ∧ ((0x9121#16).toNat / 4096 = 9 ∧ (0x9121#16).toNat % 16 ≠ 0) ∧
    ((0x812F#16).toNat / 4096 = 8 ∧ (0x812F#16).toNat % 16 ∈ [0x8, 0x9, 0xA, 0xB, 0xC, 0xD, 0xF]) ∧
    ((0xE19F#16).toNat / 4096 = 0xE ∧ (0xE19F#16).toNat % 256 ∉ [0x9E, 0xA1]) ∧
    ((0xF1FF#16).toNat / 4096 = 0xF ∧
      (0xF1FF#16).toNat % 256 ∉ [0x07, 0x0A, 0x15, 0x18, 0x1E, 0x29, 0x33, 0x55, 0x65]) ∧
    (0x1000#16).toNat / 4096 = 1 := by decide
theorem witness_StepRunsTheDecodedInstruction : let s := placed 0xFFE#16 0x6005
    s.Running ∧ s.pc.toNat = 4094 ∧ decodeWord (s.byteAt s.pc.toNat ++ s.byteAt (s.pc.toNat + 1)) = .instr (.ldImm 0 5#8) :=
  ⟨⟨.inl rfl, rfl⟩, by decide, by decide⟩
theorem witness_StepAtAnUndecodableWordFaults : let s := placed 0xFFE#16 0x5121
    s.Running ∧ s.pc.toNat = 4094 ∧
    decodeWord (s.byteAt s.pc.toNat ++ s.byteAt (s.pc.toNat + 1)) = .illegal 0x5121#16 :=
  ⟨⟨.inl rfl, rfl⟩, by decide, by decide⟩
/-- At 4095 and at 4096, with nothing scheduled and with the CPU scheduled. -/
theorem witness_FailedFetchLeavesPcUnadvanced :
    ({ State.reset with pc := 0x0FFF#16 }).Running ∧ 4094 < (0x0FFF#16).toNat ∧
    ({ State.reset with pc := 0x1000#16, schedule := [.cpu] }).Running ∧ 4094 < (0x1000#16).toNat :=
  ⟨⟨.inl rfl, rfl⟩, by decide, ⟨.inr ⟨[], rfl⟩, rfl⟩, by decide⟩
theorem witness_HaltedCoreIgnoresSteps :
    ({ State.reset with fault := some .stackOverflow }).CpuTurn ∧
    ({ State.reset with fault := some .stackOverflow }).fault ≠ none := ⟨.inl rfl, by decide⟩
theorem witness_OnlyAResetLeavesTheHaltedState : let s := { State.reset with fault := some .stackOverflow, schedule := [.tick] }
    s.fault ≠ none ∧ (∃ t, step s = .next t) ∧ ∀ program rest, s.schedule ≠ .boot program :: rest :=
  ⟨by decide, ⟨_, rfl⟩, fun _ _ h => by cases h⟩
theorem witness_StoredWordIsWhatTheNextStepExecutes : let s := { State.reset with pc := 0x0FFE#16 }
    Memory.wf s.fontBase s.mem ∧ s.Running ∧ s.pc.toNat = 4094 := ⟨by decide, ⟨.inl rfl, rfl⟩, by decide⟩
/-- Both sides of the bound. -/
theorem witness_AccessesAreBoundedAndReadAfterWrite :
    Memory.wf State.reset.fontBase State.reset.mem ∧ 4096 > 4095 ∧ 4095 ≤ 4095 := by decide
/-- Depths 0, 15 and 16. -/
theorem witness_PushStoresAtTheDepth : ({ State.reset with SP := 0 }).SP = (0 : Fin 16).castSucc ∧
    ({ State.reset with SP := 15 }).SP = (15 : Fin 16).castSucc ∧ ({ State.reset with SP := 16 }).SP = 16 := by decide
/-- Depths 1, 16, 0 and 14. -/
theorem witness_PopTakesTheLastPushed : ({ State.reset with SP := 1 }).SP = (0 : Fin 16).succ ∧
    ({ State.reset with SP := 16 }).SP = (15 : Fin 16).succ ∧ State.reset.SP = 0 ∧
    ({ State.reset with SP := 14 }).SP.val ≤ 14 := by decide
theorem witness_RetReturnsToThePoppedAddress : ({ State.reset with SP := 1 }).SP = (0 : Fin 16).succ ∧
    ({ State.reset with SP := 16 }).SP = (15 : Fin 16).succ ∧ State.reset.SP = 0 := by decide
theorem witness_CallPushesThePostFetchPc : State.reset.SP = (0 : Fin 16).castSucc ∧
    ({ State.reset with SP := 15 }).SP = (15 : Fin 16).castSucc ∧ ({ State.reset with SP := 16 }).SP = 16 := by decide
theorem witness_RetUndoesCall : ({ State.reset with SP := 15 }).SP.val < 16 ∧
    ∃ t, exec (.call 0x300#12) { State.reset with SP := 15 } = .next t := ⟨by decide, ⟨_, rfl⟩⟩
theorem witness_LdBcdStoresThreeDigits : let s := { State.reset with I := 0x0FFD#16 }
    Memory.wf s.fontBase s.mem ∧ s.I.toNat + 2 = 4095 := by decide
theorem witness_StoreWindowStoresRegisters : let s := { State.reset with I := 0x0FF0#16 }
    Memory.wf s.fontBase s.mem ∧ s.I.toNat + (15 : Reg).val = 4095 ∧ (0 : Reg) ≤ 15 ∧ s.I.toNat - 1 < s.I.toNat := by decide
theorem witness_LoadWindowLoadsRegisters : ({ State.reset with I := 0x0FF0#16 }).I.toNat + (15 : Reg).val ≤ 4095 := by decide
/-- BCD with two, one and no digit inside memory; a window with one byte outside, and one from the end of `I`'s range. -/
theorem witness_StoresBeforeAnAddressFaultStay : Memory.wf State.reset.fontBase State.reset.mem ∧
    (4095 < (0x0FFE#16).toNat + 2 ∧ (0x0FFE#16).toNat + 1 ≤ 4095) ∧ (4095 < (0x0FFF#16).toNat + 2 ∧ (0x0FFF#16).toNat ≤ 4095) ∧
    4095 < (0x1000#16).toNat + 2 ∧ (4095 < (0x0FF1#16).toNat + (15 : Reg).val ∧ (0x0FF1#16).toNat + (14 : Reg).val ≤ 4095) ∧
    4095 < (0xFFFF#16).toNat + (15 : Reg).val := by decide
theorem witness_LoadsBeforeAnAddressFaultStay : 4095 < ({ State.reset with I := 0x0FF1#16 }).I.toNat + (15 : Reg).val ∧
    4095 < ({ State.reset with I := 0xFFFF#16 }).I.toNat + (0 : Reg).val := by decide
theorem witness_TickCountsDownToZero : ({ State.reset with schedule := [.tick, .cpu] }).schedule = .tick :: [.cpu] := rfl
theorem witness_KeySkipsSampleOneKey : (5 : Key).val = ((start [(1, 0x25#8)]).V[1]).toNat % 16 := by decide
/-- No key down; the highest key alone; two keys down. -/
theorem witness_KeyWaitRewindsOrStoresTheLowestKey : (∀ k : Key, State.reset.KEY[k.val] = false) ∧
    ((keysDown [15])[(15 : Key).val] = true ∧ ∀ j : Key, j < 15 → (keysDown [15])[j.val] = false) ∧
    ((keysDown [9, 4])[(4 : Key).val] = true ∧ ∀ j : Key, j < 4 → (keysDown [9, 4])[j.val] = false) := by decide
theorem witness_KeyWaitHoldsThePc : let s := placed 0xFFE#16 0xFF0A
    s.schedule = [] ∧ s.fault = none ∧ s.pc.toNat = 4094 ∧
    s.byteAt s.pc.toNat ++ s.byteAt (s.pc.toNat + 1) = BitVec.ofNat 16 (0xF00A + (15 : Reg).val * 256) ∧
    ∀ k : Key, s.KEY[k.val] = false := ⟨rfl, rfl, by decide, by decide, by decide⟩
theorem witness_SelfJumpIsAFixedPoint :
    (placed 0xFFE#16 0x1FFE).schedule = [] ∧ (placed 0xFFE#16 0x1FFE).atSelfJump = true := ⟨rfl, by decide⟩
/-- No row with `I` outside memory; fifteen rows that end at the last byte. -/
theorem witness_DrwDrawsTheSprite : ((0 : Fin 16) = 0 ∨ (0xFFFF#16).toNat + (0 : Fin 16).val ≤ 4096) ∧
    ((15 : Fin 16) = 0 ∨ (0x0FF1#16).toNat + (15 : Fin 16).val ≤ 4096) := by decide
theorem witness_DrwFaultTouchesNoPixel : ((15 : Fin 16) ≠ 0 ∧ 4096 < (0x0FF2#16).toNat + (15 : Fin 16).val) ∧
    ((1 : Fin 16) ≠ 0 ∧ 4096 < (0x1000#16).toNat + (1 : Fin 16).val) := by decide
theorem witness_DrawingTwiceRestores : (List.replicate 15 0xFF#8).length ≤ 15 := by decide
/-- An empty program, the longest that fits, and one byte more. -/
theorem witness_BootResetsAndLoads : (∀ p, ({ State.reset with schedule := [.boot p] }).schedule = .boot p :: []) ∧
    (List.replicate 3584 0xFF#8).length ≤ 3584 ∧ 3584 < (List.replicate 3585 0xFF#8).length :=
  ⟨fun _ => rfl, Nat.le_of_eq List.length_replicate, Nat.lt_of_lt_of_eq (by decide : 3584 < 3585) List.length_replicate.symm⟩
theorem witness_KeySourceChangesOneFlag : ({ State.reset with schedule := [.key 15 true] }).schedule = .key 15 true :: [] := rfl
theorem witness_EveryStepKeepsTheInvariant : State.reset.Inv ∧ ∃ t, step State.reset = .next t :=
  ⟨⟨by decide, by decide, fun k h => absurd h (Nat.not_lt_zero _), fun h => (by cases h), fun h => (by cases h)⟩, ⟨_, rfl⟩⟩
theorem witness_InstructionsFaultExactlyAsListed : State.reset.fault = none := rfl
theorem witness_RegistersNotListedAreNotWritten :
    (∃ t, exec (.addReg 1 2) State.reset = .next t) ∧ writesReg (.addReg 1 2) 2 = false := ⟨⟨_, rfl⟩, by decide⟩
theorem witness_RegistersNotListedAreNotRead :
    (∃ t, exec (.shrReg 1 2) State.reset = .next t) ∧ readsReg (.shrReg 1 2) 1 = false := ⟨⟨_, rfl⟩, by decide⟩
theorem witness_SpecialStateChangesOnlyByItsInstructions : (∃ t, exec (.ldB 1) State.reset = .next t) ∧
    writesIndex (.ldB 1) = false ∧ usesStack (.ldB 1) = false ∧ usesTimers (.ldB 1) = false ∧ writesPixels (.ldB 1) = false ∧
    movesPc (.ldB 1) = false := ⟨⟨_, rfl⟩, by decide⟩
theorem witness_OnlyTwoInstructionsStore :
    (∃ t, exec (.ldVxMem 15) State.reset = .next t) ∧ storesToMemory (.ldVxMem 15) = false := ⟨⟨_, rfl⟩, by decide⟩
theorem witness_KeysReachOnlyKeyInstructions :
    (∃ t, exec (.ldVxDT 1) State.reset = .next t) ∧ readsKeys (.ldVxDT 1) = false := ⟨⟨_, rfl⟩, by decide⟩
theorem witness_TicksCommuteWithOtherInstructions :
    (∃ t, exec (.skp 1) State.reset = .next t) ∧ usesTimers (.skp 1) = false := ⟨⟨_, rfl⟩, by decide⟩
theorem witness_NotificationsLetAnObserverFollow : Memory.wf State.reset.fontBase State.reset.mem ∧
    ∃ t, exec (.ldMemVx 15) State.reset = .next t := ⟨by decide, ⟨_, rfl⟩⟩

end Sys2Proof.Tests
end

/-! # The frame of every instruction (spec/10_state.md R22 to R33) -/

namespace Sys2Proof.Machine

/-! ## The outcomes of the instructions that branch -/

section outcomes

variable {s : State}

/-- The call stack replaced: what a push and a pop do to the state (R55, R56). -/
def State.setCalls (s : State) (depth : Fin 17) (entries : Vector Word 16) : State :=
  { s with SP := depth, STACK := entries }

theorem exec_ret_ok (h : 0 < s.SP.val) : exec .ret s =
    .next ((s.setCalls ⟨s.SP.val - 1, by omega⟩ s.STACK).setPc (s.STACK[s.SP.val - 1]'(by omega))) := by
  rw [exec, execRet, pop_ok h]; rfl

theorem exec_ret_empty (h : s.SP.val = 0) : exec .ret s = .next (s.raiseStack .stackUnderflow) := by
  rw [exec, execRet, pop_empty h]; rfl

theorem exec_call_ok (nnn : Addr12) (h : s.SP.val < 16) : exec (.call nnn) s =
    .next ((s.setCalls ⟨s.SP.val + 1, by omega⟩ (s.STACK.set s.SP.val s.pc)).setPc (addrImm nnn)) := by
  rw [exec, execCall, push_ok h]; rfl

theorem exec_call_full (nnn : Addr12) (h : s.SP.val = 16) :
    exec (.call nnn) s = .next (s.raiseStack .stackOverflow) := by
  rw [exec, execCall, push_full h]; rfl

/-- The `n` sprite rows that a draw reads at `I` (R185). -/
def State.spriteRows (s : State) (n : Fin 16) : List Byte := (List.range n.val).map fun i => s.byteAt (s.I.toNat + i)

theorem exec_drw_ok (x y : Reg) (n : Fin 16) (h : n.val = 0 ∨ s.I.toNat + n.val ≤ 4096) :
    exec (.drw x y n) s = .next (s.drawSprite x y (s.spriteRows n)) := by
  rw [exec, execDrw, State.indexBase, readBytes_ok n.val h]; rfl

theorem exec_drw_halted (x y : Reg) (n : Fin 16) (h : ¬(n.val = 0 ∨ s.I.toNat + n.val ≤ 4096)) :
    exec (.drw x y n) s = .next (s.raiseAddress (max s.I.toNat 4096)) := by
  rw [exec, execDrw, State.indexBase, readBytes_halted n.val (by omega) (by omega)]; rfl

theorem exec_ldVxK_none (x : Reg) (h : lowestKeyDown s.KEY = none) :
    exec (.ldVxK x) s = .next (s.setPc (s.pc - 2)) := by
  rw [exec, execLdVxK, h]

theorem exec_ldVxK_some (x : Reg) {k : Key} (h : lowestKeyDown s.KEY = some k) :
    exec (.ldVxK x) s = .next (s.setV x (BitVec.ofNat 8 k.val)) := by
  rw [exec, execLdVxK, h]

end outcomes

/-! ## What an instruction leaves unchanged -/

/-- The instruction may raise a fault in some state (spec/60_exceptions.md R221 to R224); `FrameOf.latch` ties the list to
`exec`. -/
def mayRaise : Instr → Bool
  | .ret | .call _ | .sys _ | .drw _ _ _ | .ldB _ | .ldMemVx _ | .ldVxMem _ => true
  | _ => false

/-- What instruction `i` leaves unchanged between `s` and `t`: every field that the spec's lists do not let it write. -/
structure FrameOf (i : Instr) (s t : State) : Prop where
  regs : ∀ r : Reg, writesReg i r = false → t.V[r.val] = s.V[r.val]
  index : writesIndex i = false → t.I = s.I
  stack : usesStack i = false → t.SP = s.SP ∧ t.STACK = s.STACK
  timers : usesTimers i = false → t.DT = s.DT ∧ t.ST = s.ST
  pixels : writesPixels i = false → t.FB = s.FB
  pc : movesPc i = false → t.pc = s.pc
  mem : storesToMemory i = false → t.mem = s.mem
  latch : mayRaise i = false → t.fault = s.fault ∧ t.faultInfo = s.faultInfo
  keys : t.KEY = s.KEY
  fontBase : t.fontBase = s.fontBase
  schedule : t.schedule = s.schedule

namespace FrameOf

variable {i : Instr} {s t u : State}

theorem refl (i : Instr) (s : State) : FrameOf i s s := by constructor <;> simp

theorem trans (h : FrameOf i s t) (h' : FrameOf i t u) : FrameOf i s u where
  regs r hr := (h'.regs r hr).trans (h.regs r hr)
  index hi := (h'.index hi).trans (h.index hi)
  stack hi := ⟨(h'.stack hi).1.trans (h.stack hi).1, (h'.stack hi).2.trans (h.stack hi).2⟩
  timers hi := ⟨(h'.timers hi).1.trans (h.timers hi).1, (h'.timers hi).2.trans (h.timers hi).2⟩
  pixels hi := (h'.pixels hi).trans (h.pixels hi)
  pc hi := (h'.pc hi).trans (h.pc hi)
  mem hi := (h'.mem hi).trans (h.mem hi)
  latch hi := ⟨(h'.latch hi).1.trans (h.latch hi).1, (h'.latch hi).2.trans (h.latch hi).2⟩
  keys := h'.keys.trans h.keys
  fontBase := h'.fontBase.trans h.fontBase
  schedule := h'.schedule.trans h.schedule

/-! ## One rule per state operation: which instructions may use it -/

theorem emit (es : List Event) : FrameOf i s (s.emit es) := by constructor <;> simp

theorem useDraw : FrameOf i s s.useDraw := by constructor <;> simp

theorem setV {x : Reg} (h : writesReg i x = true) (v : Byte) : FrameOf i s (s.setV x v) := by
  constructor
  case regs =>
    intro r hr
    have hxr : x.val ≠ r.val := fun e => by rw [Fin.ext e, hr] at h; cases h
    exact State.setV_V_other s x v r.val r.isLt hxr
  all_goals simp

theorem setPc (h : movesPc i = true) (a : Word) : FrameOf i s (s.setPc a) := by constructor <;> simp [h]

theorem skipIf (h : movesPc i = true) (c : Bool) : FrameOf i s (s.skipIf c) := by constructor <;> simp [h]

theorem setI (h : writesIndex i = true) (a : Word) : FrameOf i s (s.setI a) := by constructor <;> simp [h]

theorem setDT (h : usesTimers i = true) (v : Byte) : FrameOf i s (s.setDT v) := by constructor <;> simp [h]

theorem setST (h : usesTimers i = true) (v : Byte) : FrameOf i s (s.setST v) := by constructor <;> simp [h]

theorem setFB (h : writesPixels i = true) (fb : FrameBuffer) : FrameOf i s (s.setFB fb) := by constructor <;> simp [h]

theorem setByte (h : storesToMemory i = true) (a : Nat) (v : Byte) : FrameOf i s (s.setByte a v) := by
  constructor <;> simp [h]

theorem raise (h : mayRaise i = true) (f : Fault) (info : BitVec 17) : FrameOf i s (s.raise f info) := by
  constructor <;> simp [h]

theorem raiseStack (h : mayRaise i = true) (f : Fault) : FrameOf i s (s.raiseStack f) := (raise h f _).trans useDraw

theorem setCalls (h : usesStack i = true) (depth : Fin 17) (entries : Vector Word 16) :
    FrameOf i s (s.setCalls depth entries) := by
  constructor <;> simp [h, State.setCalls]

theorem setFlagThenResult {x : Reg} (hf : writesReg i vf = true) (hx : writesReg i x = true) (flag : Bool) (v : Byte) :
    FrameOf i s (s.setFlagThenResult x flag v) := (setV hf _).trans (setV hx v)

/-! ## The shared operations -/

theorem storeBytes (hm : storesToMemory i = true) (hr : mayRaise i = true) (base : Nat) (bs : List Byte) :
    FrameOf i s (Machine.storeBytes base bs s).state := by
  induction bs generalizing base s with
  | nil => exact refl i s
  | cons b bs ih =>
    rw [Machine.storeBytes, memWrite]
    split
    · exact raise hr _ _
    · exact (setByte hm base b).trans (ih (base + 1))

theorem loadRegs (hr : mayRaise i = true) (base : Nat) {rs : List Reg} (hrs : ∀ r ∈ rs, writesReg i r = true) :
    FrameOf i s (Machine.loadRegs base rs s).state := by
  induction rs generalizing s with
  | nil => exact refl i s
  | cons r rs ih =>
    obtain ⟨hw, hrest⟩ := List.forall_mem_cons.mp hrs
    rw [Machine.loadRegs, memRead]
    split
    · exact raise hr _ _
    · exact (setV hw _).trans (ih hrest)

end FrameOf

/-- Every instruction answers a next state, inside its frame. -/
theorem exec_frame (i : Instr) (s : State) : ∃ t, exec i s = .next t ∧ FrameOf i s t := by
  cases i with
  | seImm | sneImm | seReg | sneReg | skp | sknp => exact ⟨_, rfl, .skipIf rfl _⟩
  | ldImm | addImm | ldReg | orReg | andReg | xorReg | ldVxDT => exact ⟨_, rfl, .setV (by simp [writesReg]) _⟩
  | addReg | subReg | shrReg | subnReg | shlReg =>
    exact ⟨_, rfl, .setFlagThenResult (by simp [writesReg]) (by simp [writesReg]) _ _⟩
  | rnd x nn => exact ⟨_, rfl, FrameOf.useDraw.trans (.setV (by simp [writesReg]) _)⟩
  | jp | jpV0 => exact ⟨_, rfl, .setPc rfl _⟩
  | ldI | addI | ldF => exact ⟨_, rfl, .setI rfl _⟩
  | ldDTVx => exact ⟨_, rfl, .setDT rfl _⟩
  | ldSTVx => exact ⟨_, rfl, (FrameOf.setST rfl _).trans (.emit _)⟩
  | sys => exact ⟨_, rfl, .raise rfl _ _⟩
  | cls => exact ⟨_, rfl, (FrameOf.setFB rfl _).trans (.emit _)⟩
  | ldB | ldMemVx => exact ⟨_, rfl, .storeBytes rfl rfl _ _⟩
  | ldVxMem x => exact ⟨_, rfl, .loadRegs rfl _ fun r hr => decide_eq_true (mem_windowRegs.mp hr)⟩
  | ret =>
    by_cases h : 0 < s.SP.val
    · exact ⟨_, exec_ret_ok h, (FrameOf.setCalls rfl _ _).trans (.setPc rfl _)⟩
    · exact ⟨_, exec_ret_empty (by omega), .raiseStack rfl _⟩
  | call nnn =>
    by_cases h : s.SP.val < 16
    · exact ⟨_, exec_call_ok nnn h, (FrameOf.setCalls rfl _ _).trans (.setPc rfl _)⟩
    · exact ⟨_, exec_call_full nnn (by omega), .raiseStack rfl _⟩
  | drw x y n =>
    by_cases h : n.val = 0 ∨ s.I.toNat + n.val ≤ 4096
    · exact ⟨_, exec_drw_ok x y n h, ((FrameOf.setFB rfl _).trans (.setV rfl _)).trans (.emit _)⟩
    · exact ⟨_, exec_drw_halted x y n h, .raise rfl _ _⟩
  | ldVxK x =>
    cases hk : lowestKeyDown s.KEY with
    | none => exact ⟨_, exec_ldVxK_none x hk, .setPc rfl _⟩
    | some k => exact ⟨_, exec_ldVxK_some x hk, .setV (by simp [writesReg]) _⟩

theorem frameOf_exec {i : Instr} {s t : State} (h : exec i s = .next t) : FrameOf i s t := by
  obtain ⟨t', ht, hf⟩ := exec_frame i s
  cases ht.symm.trans h
  exact hf

/-- Settles O54: the register clause of the frame. -/
theorem registersNotListedAreNotWritten : Obligations.RegistersNotListedAreNotWritten :=
  fun _ _ _ r h hw => (frameOf_exec h).regs r hw

/-- Settles O56: the clauses of the frame for the special state. -/
theorem specialStateChangesOnlyByItsInstructions : Obligations.SpecialStateChangesOnlyByItsInstructions := by
  intro i s t h
  have f := frameOf_exec h
  exact ⟨f.index, f.stack, f.timers, f.pixels, f.pc, f.keys, f.fontBase, f.schedule⟩

end Sys2Proof.Machine

/-! # Noninterference: related states have related successors -/

namespace Sys2Proof.Machine

/-- A relation between states that agree on everything an instruction can reach except the registers, the keys and the
timers, and that every named update made on both sides keeps. -/
structure IsCongruence (R : State → State → Prop) : Prop where
  I {s u} : R s u → u.I = s.I
  pc {s u} : R s u → u.pc = s.pc
  SP {s u} : R s u → u.SP = s.SP
  STACK {s u} : R s u → u.STACK = s.STACK
  FB {s u} : R s u → u.FB = s.FB
  mem {s u} : R s u → u.mem = s.mem
  fontBase {s u} : R s u → u.fontBase = s.fontBase
  draws {s u} : R s u → u.draws = s.draws
  emit {s u} (es : List Event) : R s u → R (s.emit es) (u.emit es)
  useDraw {s u} : R s u → R s.useDraw u.useDraw
  setV {s u} (x : Reg) (v : Byte) : R s u → R (s.setV x v) (u.setV x v)
  setPc {s u} (a : Word) : R s u → R (s.setPc a) (u.setPc a)
  setI {s u} (a : Word) : R s u → R (s.setI a) (u.setI a)
  setFB {s u} (fb : FrameBuffer) : R s u → R (s.setFB fb) (u.setFB fb)
  setByte {s u} (a : Nat) (v : Byte) : R s u → R (s.setByte a v) (u.setByte a v)
  setCalls {s u} (depth : Fin 17) (entries : Vector Word 16) :
    R s u → R (s.setCalls depth entries) (u.setCalls depth entries)
  raise {s u} (f : Fault) (info : BitVec 17) : R s u → R (s.raise f info) (u.raise f info)

/-- The relation sees the timers: related states agree on them, and a timer write made on both sides keeps it. -/
structure SeesTimers (R : State → State → Prop) : Prop where
  DT {s u} : R s u → u.DT = s.DT
  ST {s u} : R s u → u.ST = s.ST
  setDT {s u} (v : Byte) : R s u → R (s.setDT v) (u.setDT v)
  setST {s u} (v : Byte) : R s u → R (s.setST v) (u.setST v)

theorem keyOf_congr {s u : State} {x : Reg} (hx : u.reg x = s.reg x) (hk : u.KEY = s.KEY) : u.keyOf x = s.keyOf x := by
  simp only [State.keyOf, hx, hk]

theorem window_congr {s u : State} {x : Reg} (hw : ∀ r, readsReg (.ldMemVx x) r = true → u.reg r = s.reg r) :
    u.window x = s.window x :=
  List.map_congr_left fun r hr => hw r (decide_eq_true (mem_windowRegs.mp hr))

namespace IsCongruence

variable {R : State → State → Prop} (hR : IsCongruence R) {s u : State}
include hR

theorem byteAt (h : R s u) (a : Nat) : u.byteAt a = s.byteAt a := by
  rw [State.byteAt, hR.mem h, hR.fontBase h]; rfl

theorem skipIf (h : R s u) (c : Bool) : R (s.skipIf c) (u.skipIf c) := by
  cases c with
  | false => exact h
  | true =>
    rw [State.skipIf, State.skipIf, hR.pc h]
    exact hR.setPc _ h

theorem raiseStack (h : R s u) (f : Fault) : R (s.raiseStack f) (u.raiseStack f) := by
  rw [State.raiseStack, State.raiseStack, hR.draws h]
  exact hR.useDraw (hR.raise f _ h)

theorem setFlagThenResult (h : R s u) (x : Reg) (flag : Bool) (v : Byte) :
    R (s.setFlagThenResult x flag v) (u.setFlagThenResult x flag v) := hR.setV x v (hR.setV vf _ h)

theorem storeBytes (h : R s u) (base : Nat) (bs : List Byte) :
    R (Machine.storeBytes base bs s).state (Machine.storeBytes base bs u).state := by
  induction bs generalizing base s u with
  | nil => exact h
  | cons b bs ih =>
    rw [Machine.storeBytes, Machine.storeBytes, memWrite, memWrite]
    split
    · exact hR.raise _ _ h
    · exact ih (hR.setByte base b h) (base + 1)

theorem loadRegs (h : R s u) (base : Nat) (rs : List Reg) :
    R (Machine.loadRegs base rs s).state (Machine.loadRegs base rs u).state := by
  induction rs generalizing s u with
  | nil => exact h
  | cons r rs ih =>
    rw [Machine.loadRegs, Machine.loadRegs, memRead, memRead, hR.byteAt h]
    split
    · exact hR.raise _ _ h
    · exact ih (hR.setV r _ h)

theorem drawSprite (h : R s u) {x y : Reg} (hx : u.reg x = s.reg x) (hy : u.reg y = s.reg y) (rows : List Byte) :
    R (s.drawSprite x y rows) (u.drawSprite x y rows) := by
  rw [State.drawSprite, State.drawSprite, hR.FB h, hx, hy]
  exact hR.emit _ (hR.setV vf _ (hR.setFB _ h))

theorem spriteRows (h : R s u) (n : Fin 16) : u.spriteRows n = s.spriteRows n := by
  simp only [State.spriteRows, hR.I h, hR.byteAt h]

/-- An instruction takes related states to related states, where they agree on the registers it reads (R23), and on the
keys and the timers if it reads those. -/
theorem exec_related (h : R s u) (i : Instr) (hreg : ∀ r, readsReg i r = true → u.reg r = s.reg r)
    (hkey : readsKeys i = true → u.KEY = s.KEY) (htimer : usesTimers i = true → SeesTimers R) :
    ∃ t t', exec i s = .next t ∧ exec i u = .next t' ∧ R t t' := by
  cases i with
  | cls => exact ⟨_, _, rfl, rfl, hR.emit _ (hR.setFB _ h)⟩
  | sys nnn => exact ⟨_, _, rfl, rfl, hR.raise _ _ h⟩
  | jp nnn => exact ⟨_, _, rfl, rfl, hR.setPc _ h⟩
  | ldI nnn => exact ⟨_, _, rfl, rfl, hR.setI _ h⟩
  | ldImm x nn => exact ⟨_, _, rfl, rfl, hR.setV x nn h⟩
  | seImm | sneImm | seReg | sneReg =>
    refine ⟨_, _, rfl, rfl, ?_⟩
    simp (disch := simp [readsReg]) only [hreg]
    exact hR.skipIf h _
  | addImm | ldReg | orReg | andReg | xorReg =>
    refine ⟨_, _, rfl, rfl, ?_⟩
    simp (disch := simp [readsReg]) only [hreg]
    exact hR.setV _ _ h
  | addReg | subReg | subnReg | shrReg | shlReg =>
    refine ⟨_, _, rfl, rfl, ?_⟩
    simp (disch := simp [readsReg]) only [hreg]
    exact hR.setFlagThenResult h _ _ _
  | jpV0 nnn =>
    refine ⟨_, _, rfl, rfl, ?_⟩
    rw [hreg 0 rfl]
    exact hR.setPc _ h
  | rnd x nn =>
    refine ⟨_, _, rfl, rfl, ?_⟩
    rw [State.rand8, State.rand8, hR.draws h]
    exact hR.setV x _ (hR.useDraw h)
  | addI x =>
    refine ⟨_, _, rfl, rfl, ?_⟩
    rw [hR.I h, hreg x (by simp [readsReg])]
    exact hR.setI _ h
  | ldF x =>
    refine ⟨_, _, rfl, rfl, ?_⟩
    rw [hR.fontBase h, hreg x (by simp [readsReg])]
    exact hR.setI _ h
  | skp x | sknp x =>
    refine ⟨_, _, rfl, rfl, ?_⟩
    rw [keyOf_congr (hreg x (by simp [readsReg])) (hkey rfl)]
    exact hR.skipIf h _
  | ldVxDT x =>
    refine ⟨_, _, rfl, rfl, ?_⟩
    rw [(htimer rfl).DT h]
    exact hR.setV x _ h
  | ldDTVx x =>
    refine ⟨_, _, rfl, rfl, ?_⟩
    rw [hreg x (by simp [readsReg])]
    exact (htimer rfl).setDT _ h
  | ldSTVx x =>
    refine ⟨_, _, rfl, rfl, ?_⟩
    rw [(htimer rfl).ST h, hreg x (by simp [readsReg])]
    exact hR.emit _ ((htimer rfl).setST _ h)
  | ldB x =>
    refine ⟨_, _, rfl, rfl, ?_⟩
    rw [State.indexBase, State.indexBase, hR.I h, hreg x (by simp [readsReg])]
    exact hR.storeBytes h _ _
  | ldMemVx x =>
    refine ⟨_, _, rfl, rfl, ?_⟩
    rw [State.indexBase, State.indexBase, hR.I h, window_congr hreg]
    exact hR.storeBytes h _ _
  | ldVxMem x =>
    refine ⟨_, _, rfl, rfl, ?_⟩
    rw [State.indexBase, State.indexBase, hR.I h]
    exact hR.loadRegs h _ _
  | ldVxK x =>
    cases hk : lowestKeyDown s.KEY with
    | none =>
      refine ⟨_, _, exec_ldVxK_none x hk, exec_ldVxK_none x (by rwa [hkey rfl]), ?_⟩
      rw [hR.pc h]
      exact hR.setPc _ h
    | some k => exact ⟨_, _, exec_ldVxK_some x hk, exec_ldVxK_some x (by rwa [hkey rfl]), hR.setV x _ h⟩
  | ret =>
    by_cases hs : 0 < s.SP.val
    · refine ⟨_, _, exec_ret_ok hs, exec_ret_ok (by rwa [hR.SP h]), ?_⟩
      simp only [hR.SP h, hR.STACK h]
      exact hR.setPc _ (hR.setCalls _ _ h)
    · exact ⟨_, _, exec_ret_empty (by omega), exec_ret_empty (by rw [hR.SP h]; omega), hR.raiseStack h _⟩
  | call nnn =>
    by_cases hs : s.SP.val < 16
    · refine ⟨_, _, exec_call_ok nnn hs, exec_call_ok nnn (by rwa [hR.SP h]), ?_⟩
      simp only [hR.SP h, hR.STACK h, hR.pc h]
      exact hR.setPc _ (hR.setCalls _ _ h)
    · exact ⟨_, _, exec_call_full nnn (by omega), exec_call_full nnn (by rw [hR.SP h]; omega), hR.raiseStack h _⟩
  | drw x y n =>
    by_cases hn : n.val = 0 ∨ s.I.toNat + n.val ≤ 4096
    · refine ⟨_, _, exec_drw_ok x y n hn, exec_drw_ok x y n (by rwa [hR.I h]), ?_⟩
      rw [hR.spriteRows h]
      exact hR.drawSprite h (hreg x (by simp [readsReg])) (hreg y (by simp [readsReg])) _
    · refine ⟨_, _, exec_drw_halted x y n hn, exec_drw_halted x y n (by rwa [hR.I h]), ?_⟩
      rw [hR.I h]
      exact hR.raise _ _ h

end IsCongruence

/-! ## The keys -/

/-- The second state is the first but for the key flags, which are `keys`. -/
def KeysReplaced (keys : KeyState) (s u : State) : Prop := u = { s with KEY := keys }

theorem keysReplaced_isCongruence (keys : KeyState) : IsCongruence (KeysReplaced keys) := by
  constructor <;> (intros; rename_i h; obtain rfl := h; rfl)

theorem keysReplaced_seesTimers (keys : KeyState) : SeesTimers (KeysReplaced keys) := by
  constructor <;> (intros; rename_i h; obtain rfl := h; rfl)

/-- Settles O58: replacing the keys is a congruence that sees the timers and keeps every register. -/
theorem keysReachOnlyKeyInstructions : Obligations.KeysReachOnlyKeyInstructions := by
  intro i s t keys h hkeys
  obtain ⟨t', u, ht, hu, hR⟩ := (keysReplaced_isCongruence keys).exec_related (s := s) rfl i (fun _ _ => rfl)
    (fun hk => by rw [hkeys] at hk; cases hk) (fun _ => keysReplaced_seesTimers keys)
  cases ht.symm.trans h
  rw [hu, hR]

/-! ## One register -/

/-- The two states differ at most in `V[r]` and the notifications. -/
def DiffersAt (r : Reg) (s u : State) : Prop :=
  ∃ V ev, u = { s with V := V, events := ev } ∧ ∀ q : Reg, q ≠ r → V[q.val] = s.V[q.val]

theorem DiffersAt.setV {r : Reg} {s u : State} (x : Reg) (v : Byte) (h : DiffersAt r s u) :
    DiffersAt r (s.setV x v) (u.setV x v) := by
  obtain ⟨V, ev, rfl, hV⟩ := h
  refine ⟨_, _, rfl, fun q hq => ?_⟩
  simp only [State.setV_V, Vector.getElem_set, hV q hq]

theorem differsAt_isCongruence (r : Reg) : IsCongruence (DiffersAt r) := by
  constructor
  case setV => exact fun x v h => h.setV x v
  all_goals intros; rename_i h; obtain ⟨V, ev, rfl, hV⟩ := h
  case I | pc | SP | STACK | FB | mem | fontBase | draws => rfl
  all_goals exact ⟨V, _, rfl, hV⟩

theorem differsAt_seesTimers (r : Reg) : SeesTimers (DiffersAt r) := by
  constructor <;> (intros; rename_i h; obtain ⟨V, ev, rfl, hV⟩ := h)
  case DT | ST => rfl
  all_goals exact ⟨V, _, rfl, hV⟩

/-- Settles O55: differing at one register is a congruence, and the instruction reads the other registers only. -/
theorem registersNotListedAreNotRead : Obligations.RegistersNotListedAreNotRead := by
  intro i s t r v h hr
  have hset (q : Reg) (hq : q ≠ r) : (s.V.set r.val v)[q.val] = s.V[q.val] :=
    Vector.getElem_set_ne r.isLt q.isLt fun e => hq (Fin.ext e.symm)
  have hreg (q : Reg) (hq : readsReg i q = true) : q ≠ r := by
    rintro rfl
    rw [hr] at hq; cases hq
  obtain ⟨t', u, ht, hu, hR⟩ := (differsAt_isCongruence r).exec_related ⟨s.V.set r.val v, s.events, rfl, hset⟩ i
    (fun q hq => hset q (hreg q hq)) (fun _ => rfl) (fun _ => differsAt_seesTimers r)
  cases ht.symm.trans h
  obtain ⟨V, ev, rfl, hV⟩ := hR
  exact ⟨_, hu, rfl, hV⟩

end Sys2Proof.Machine

/-! # The invariant -/

namespace Sys2Proof.Machine

/-! ## The clauses of the invariant, each kept by the operations it speaks of -/

/-- The information is in the range of the fault's kind (spec/60_exceptions.md R227): the two clauses `info_address` and
`info_opcode` of `State.Inv`. -/
def State.LatchInRange (s : State) : Prop :=
  (s.fault = some .addressOutOfBounds → 4096 ≤ s.faultInfo.toNat ∧ s.faultInfo.toNat ≤ 0x1000E) ∧
  (s.fault = some .unknownOpcode → s.faultInfo.toNat < 65536)

/-- Every live stack entry is an address after a `CALL` (R35): the clause `stack_live` of `State.Inv`. -/
def State.StackLive (s : State) : Prop :=
  ∀ k : Fin 16, k.val < s.SP.val → 0x0002 ≤ s.STACK[k.val].toNat ∧ s.STACK[k.val].toNat ≤ 0x1000

variable {s t : State} {i : Instr}

theorem State.Inv.latchInRange (h : s.Inv) : s.LatchInRange := ⟨h.info_address, h.info_opcode⟩

theorem State.LatchInRange.of_eq (h : s.LatchInRange) (hf : t.fault = s.fault) (hi : t.faultInfo = s.faultInfo) :
    t.LatchInRange := by
  rw [LatchInRange, hf, hi]; exact h

theorem raiseAddress_latchInRange {a : Nat} (hlo : 4096 ≤ a) (hhi : a ≤ 0x1000E) : (s.raiseAddress a).LatchInRange := by
  refine ⟨fun _ => ?_, nofun⟩
  rw [State.raiseAddress_faultInfo, BitVec.toNat_ofNat]
  omega

theorem raiseOpcode_latchInRange (w : Word) : (s.raiseOpcode w).LatchInRange := by
  refine ⟨nofun, fun _ => ?_⟩
  rw [State.raiseOpcode_faultInfo, BitVec.toNat_setWidth_of_le (by decide)]
  exact w.isLt

theorem raiseStack_latchInRange {f : Fault} (ha : f ≠ .addressOutOfBounds) (ho : f ≠ .unknownOpcode) :
    (s.raiseStack f).LatchInRange := ⟨fun h => absurd (Option.some.inj h) ha, fun h => absurd (Option.some.inj h) ho⟩

theorem storeBytes_latchInRange {base : Nat} (hb : base ≤ 0x1000E) (bs : List Byte) (h : s.LatchInRange) :
    (storeBytes base bs s).state.LatchInRange := by
  induction bs generalizing base s with
  | nil => exact h
  | cons b bs ih =>
    rw [storeBytes]
    by_cases hlo : base ≤ 4095
    · rw [memWrite_ok hlo, Act.ok_bind]
      exact ih (by omega) h
    · rw [memWrite_halted (by omega), Act.halted_bind]
      exact raiseAddress_latchInRange (by omega) hb

theorem loadRegs_latchInRange {base : Nat} (hb : base ≤ 65535) (rs : List Reg) (h : s.LatchInRange) :
    (loadRegs base rs s).state.LatchInRange := by
  induction rs generalizing s with
  | nil => exact h
  | cons r rs ih =>
    rw [loadRegs]
    by_cases hlo : base + r.val ≤ 4095
    · rw [memRead_ok hlo, Act.ok_bind]
      exact ih h
    · rw [memRead_halted (by omega), Act.halted_bind]
      exact raiseAddress_latchInRange (by omega) (by omega)

theorem setCalls_push_stackLive (h : s.StackLive) (hs : s.SP.val < 16) {a : Word} (hlo : 2 ≤ a.toNat)
    (hhi : a.toNat ≤ 0x1000) : (s.setCalls ⟨s.SP.val + 1, by omega⟩ (s.STACK.set s.SP.val a)).StackLive := by
  intro k hk
  simp only [State.setCalls] at hk ⊢
  by_cases hks : s.SP.val = k.val
  · simp [hks, hlo, hhi]
  · rw [Vector.getElem_set_ne _ _ hks]
    exact h k (by omega)

/-! ## The instructions -/

theorem exec_latchInRange (h : s.LatchInRange) (he : exec i s = .next t) : t.LatchInRange := by
  have hI : s.indexBase ≤ 65535 := Nat.le_of_lt_succ s.I.isLt
  cases hm : mayRaise i with
  | false => exact h.of_eq ((frameOf_exec he).latch hm).1 ((frameOf_exec he).latch hm).2
  | true =>
    cases i with
    | sys nnn => cases he; exact raiseOpcode_latchInRange _
    | ldB | ldMemVx => cases he; exact storeBytes_latchInRange (by omega) _ h
    | ldVxMem => cases he; exact loadRegs_latchInRange hI _ h
    | ret =>
      by_cases hs : 0 < s.SP.val
      · cases (exec_ret_ok hs).symm.trans he; exact h
      · cases (exec_ret_empty (by omega)).symm.trans he
        exact raiseStack_latchInRange (by decide) (by decide)
    | call nnn =>
      by_cases hs : s.SP.val < 16
      · cases (exec_call_ok nnn hs).symm.trans he; exact h
      · cases (exec_call_full nnn (by omega)).symm.trans he
        exact raiseStack_latchInRange (by decide) (by decide)
    | drw x y n =>
      by_cases hn : n.val = 0 ∨ s.I.toNat + n.val ≤ 4096
      · cases (exec_drw_ok x y n hn).symm.trans he; exact h
      · cases (exec_drw_halted x y n hn).symm.trans he
        exact raiseAddress_latchInRange (by omega) (by rw [State.indexBase] at hI; omega)
    | _ => cases hm

theorem exec_mem_wf (h : Memory.wf s.fontBase s.mem) (he : exec i s = .next t) : Memory.wf t.fontBase t.mem := by
  cases hm : storesToMemory i with
  | false => rw [(frameOf_exec he).mem hm, (frameOf_exec he).fontBase]; exact h
  | true =>
    cases i with
    | ldB | ldMemVx => cases he; exact storeBytes_wf _ _ h
    | _ => cases hm

theorem exec_stackLive (h : s.StackLive) (hlo : 2 ≤ s.pc.toNat) (hhi : s.pc.toNat ≤ 0x1000) (he : exec i s = .next t) :
    t.StackLive := by
  cases hm : usesStack i with
  | false =>
    obtain ⟨hSP, hSTACK⟩ := (frameOf_exec he).stack hm
    rw [State.StackLive, hSP, hSTACK]
    exact h
  | true =>
    cases i with
    | call nnn =>
      by_cases hs : s.SP.val < 16
      · cases (exec_call_ok nnn hs).symm.trans he
        exact setCalls_push_stackLive h hs hlo hhi
      · cases (exec_call_full nnn (by omega)).symm.trans he; exact h
    | ret =>
      by_cases hs : 0 < s.SP.val
      · cases (exec_ret_ok hs).symm.trans he
        exact fun k hk => h k (Nat.lt_of_lt_of_le hk (Nat.sub_le _ _))
      · cases (exec_ret_empty (by omega)).symm.trans he; exact h
    | _ => cases hm

theorem addrImm_le (nnn : Addr12) : (addrImm nnn).toNat ≤ 0xFFF := by
  have := nnn.isLt
  simp [addrImm]; omega

theorem skipIf_pc_le (h : s.pc.toNat ≤ 0x1000) (c : Bool) : (s.skipIf c).pc.toNat ≤ 0x1100 := by
  cases c <;> simp <;> omega

/-- `pc` stays in range (R26): the largest target is that of `JP V0, nnn` (R108). -/
theorem exec_pc_le (h : s.StackLive) (hlo : 2 ≤ s.pc.toNat) (hhi : s.pc.toNat ≤ 0x1000) (he : exec i s = .next t) :
    t.pc.toNat ≤ 0x1100 := by
  cases hm : movesPc i with
  | false => rw [(frameOf_exec he).pc hm]; omega
  | true =>
    cases i with
    | jp nnn =>
      cases he
      exact Nat.le_trans (addrImm_le nnn) (by decide)
    | jpV0 nnn =>
      cases he
      have hn := addrImm_le nnn
      have hv := (s.reg 0).isLt
      simp; omega
    | seImm | sneImm | seReg | sneReg | skp | sknp => cases he; exact skipIf_pc_le hhi _
    | ldVxK x =>
      cases hk : lowestKeyDown s.KEY with
      | none =>
        cases (exec_ldVxK_none x hk).symm.trans he
        simp; bv_omega
      | some k =>
        cases (exec_ldVxK_some x hk).symm.trans he
        exact Nat.le_trans hhi (by decide)
    | call nnn =>
      by_cases hs : s.SP.val < 16
      · cases (exec_call_ok nnn hs).symm.trans he
        exact Nat.le_trans (addrImm_le nnn) (by decide)
      · cases (exec_call_full nnn (by omega)).symm.trans he
        exact Nat.le_trans hhi (by decide)
    | ret =>
      by_cases hs : 0 < s.SP.val
      · cases (exec_ret_ok hs).symm.trans he
        exact Nat.le_trans (h ⟨s.SP.val - 1, by omega⟩ (Nat.sub_lt hs Nat.one_pos)).2 (by decide)
      · cases (exec_ret_empty (by omega)).symm.trans he
        exact Nat.le_trans hhi (by decide)
    | _ => cases hm

/-- Executed at a post-fetch `pc`, which is in 2..0x1000, every instruction keeps the invariant. -/
theorem exec_inv (h : s.Inv) (hlo : 2 ≤ s.pc.toNat) (hhi : s.pc.toNat ≤ 0x1000) (he : exec i s = .next t) : t.Inv where
  mem_wf := exec_mem_wf h.mem_wf he
  pc_le := exec_pc_le h.stack_live hlo hhi he
  stack_live := exec_stackLive h.stack_live hlo hhi he
  info_address := (exec_latchInRange h.latchInRange he).1
  info_opcode := (exec_latchInRange h.latchInRange he).2

/-! ## The moves -/

theorem inv_raise (h : s.Inv) {f : Fault} {info : BitVec 17} (hl : (s.raise f info).LatchInRange) : (s.raise f info).Inv :=
  ⟨h.mem_wf, h.pc_le, h.stack_live, hl.1, hl.2⟩

theorem execWord_inv (h : s.Inv) (hlo : 2 ≤ s.pc.toNat) (hhi : s.pc.toNat ≤ 0x1000) {w : Word}
    (he : execWord w s = .next t) : t.Inv := by
  unfold execWord at he
  split at he
  · exact exec_inv h hlo hhi he
  · cases he; exact inv_raise h (raiseOpcode_latchInRange _)

theorem cpuStep_inv (h : s.Inv) (he : cpuStep s = .next t) : t.Inv := by
  unfold cpuStep at he
  split at he
  · cases he; exact h
  · by_cases hpc : s.pc.toNat ≤ 4094
    · rw [fetch_ok hpc] at he
      have hadd : s.advance.pc.toNat = s.pc.toNat + 2 := by simp; omega
      have hadv : s.advance.Inv := ⟨h.mem_wf, by omega, h.stack_live, h.info_address, h.info_opcode⟩
      exact execWord_inv hadv (by omega) (by omega) he
    · rw [fetch_halted (by omega)] at he
      cases he
      have := h.pc_le
      exact inv_raise h (raiseAddress_latchInRange (by omega) (by omega))

theorem resetAll_inv (s : State) : s.resetAll.Inv :=
  ⟨Memory.nil_wf _, (by decide : (0x0200#16).toNat ≤ 0x1100), fun _ hk => absurd hk (Nat.not_lt_zero _), nofun, nofun⟩

theorem boot_inv (s : State) (program : List Byte) : (s.boot program).Inv := by
  have hr := resetAll_inv s
  have hl := storeBytes_latchInRange (base := Config.progOrigin) (by decide) program hr.latchInRange
  have hwf := storeBytes_wf Config.progOrigin program hr.mem_wf
  obtain ⟨m, ev, f, inf, hs⟩ := storeBytes_frame Config.progOrigin program s.resetAll
  rw [State.boot, loadProgram]
  rw [hs] at hl hwf ⊢
  exact ⟨hwf, hr.pc_le, hr.stack_live, hl.1, hl.2⟩

/-- The timers, the keys, the schedule and the events are no part of the invariant. -/
theorem State.Inv.update_outside (h : s.Inv) (dt st : Byte) (keys : KeyState) (moves : List Move) (evs : List Event) :
    State.Inv { s with DT := dt, ST := st, KEY := keys, schedule := moves, events := evs } :=
  ⟨h.mem_wf, h.pc_le, h.stack_live, h.info_address, h.info_opcode⟩

theorem perform_inv {m : Move} (h : s.Inv) (he : perform m s = .next t) : t.Inv := by
  cases m with
  | cpu => exact cpuStep_inv h he
  | tick | key => cases he; exact h.update_outside _ _ _ _ _
  | boot program => cases he; exact boot_inv s program

/-- Settles O52: taking the next move off the schedule keeps the invariant, and so does each move. -/
theorem everyStepKeepsTheInvariant : Obligations.EveryStepKeepsTheInvariant := by
  intro s t h he
  have hclear (rest : List Move) : State.Inv { s.clearEvents with schedule := rest } := h.update_outside _ _ _ _ _
  unfold step at he
  split at he
  · exact cpuStep_inv (hclear s.schedule) he
  · exact perform_inv (hclear _) he

/-- Settles O51: what a reset leaves of any state, here of itself. -/
theorem resetMeetsTheInvariant : Obligations.ResetMeetsTheInvariant := resetAll_inv State.reset

/-! ## The reset values -/

theorem resetByte_outside_font (fb : FontBase) {a : Nat} (h : a < fb.val ∨ fb.val + 80 ≤ a) : resetByte fb a = 0x00#8 :=
  if_neg (by omega)

/-- Settles O48: the fields by computation, the memory outside the font by the reset image (R59). -/
theorem resetLeavesTheStatedValues : Obligations.ResetLeavesTheStatedValues := by
  refine ⟨by decide, rfl, rfl, rfl, rfl, rfl, fun x y hx hy => ?_, by decide, rfl, rfl, fun a ha => ?_, by decide,
    by decide⟩
  · simp [State.reset]
  · exact resetByte_outside_font defaultFontBase ha

end Sys2Proof.Machine

/-! # Memory and the stack (spec/20_memory.md) -/

namespace Sys2Proof.Machine

variable {s : State}

/-! ## The call stack, one entry up or down (R55, R56) -/

@[simp] theorem State.setCalls_SP (s : State) (depth : Fin 17) (entries : Vector Word 16) :
    (s.setCalls depth entries).SP = depth := rfl

@[simp] theorem State.setCalls_STACK (s : State) (depth : Fin 17) (entries : Vector Word 16) :
    (s.setCalls depth entries).STACK = entries := rfl

theorem push_castSucc {d : Fin 16} (h : s.SP = d.castSucc) (a : Word) :
    push a s = .ok () (s.setCalls d.succ (s.STACK.set d.val a)) := by
  have hd : s.SP.val = d.val := congrArg Fin.val h
  rw [push_ok (by omega)]
  simp only [hd]
  rfl

theorem pop_succ {d : Fin 16} (h : s.SP = d.succ) :
    pop s = .ok s.STACK[d.val] (s.setCalls d.castSucc s.STACK) := by
  have hd : s.SP.val = d.val + 1 := congrArg Fin.val h
  rw [pop_ok (by omega)]
  simp only [hd, Nat.add_sub_cancel]
  rfl

/-- Settles O14: a push at a depth below 16, and at 16. -/
theorem pushStoresAtTheDepth : Obligations.PushStoresAtTheDepth := fun a _ =>
  ⟨fun _ hd => push_castSucc hd a, fun hfull => ⟨_, _, push_full (congrArg Fin.val hfull)⟩⟩

/-- Two pushes and two pops: the entries come back last pushed first, at the depth of the start. -/
theorem push_push_pop_pop (a b : Word) (h : s.SP.val ≤ 14) : ∃ t,
    ((push a s).bind fun _ s => (push b s).bind fun _ s => (pop s).bind fun p s => (pop s).bind fun q s =>
      .ok (p, q) s) = .ok (b, a) t ∧ t.SP = s.SP := by
  obtain ⟨d, hd⟩ : ∃ d : Fin 15, s.SP = d.castSucc.castSucc := ⟨⟨s.SP.val, by omega⟩, rfl⟩
  rw [push_castSucc hd, Act.ok_bind, push_castSucc (d := d.succ) rfl, Act.ok_bind, pop_succ (d := d.succ) rfl, Act.ok_bind,
    pop_succ (d := d.castSucc) rfl, Act.ok_bind]
  refine ⟨_, congrArg (Act.ok · _) ?_, hd.symm⟩
  simp

/-- Settles O15: a pop above depth 0, at depth 0, and after two pushes. -/
theorem popTakesTheLastPushed : Obligations.PopTakesTheLastPushed :=
  ⟨fun _ _ => pop_succ, fun _ hempty => ⟨_, _, pop_empty (congrArg Fin.val hempty)⟩,
    fun a b _ => push_push_pop_pop a b⟩

/-! ## Accesses (R51, R52) and what the next fetch reads of them (R65) -/

/-- Settles O13: a single access on either side of the bound, and the byte read after a write. -/
theorem accessesAreBoundedAndReadAfterWrite : Obligations.AccessesAreBoundedAndReadAfterWrite := by
  intro addr v s hwf
  refine ⟨fun hout => ⟨memRead_halted hout, memWrite_halted hout⟩, fun hin => ⟨memRead_ok hin, ?_⟩⟩
  refine ⟨s.setByte addr v, memWrite_ok hin, rfl, ?_, fun a ha => ?_⟩
  · rw [memRead_ok hin, State.setByte_byteAt hwf, if_pos rfl]
  · rw [State.setByte_byteAt hwf, if_neg ha]

/-- A store whose bytes all fit completes, and changes neither `pc` nor that the core runs. -/
theorem storeBytes_completes {base : Nat} {bs : List Byte} (h : bs = [] ∨ base + bs.length ≤ 4096) (s : State) :
    ∃ t, storeBytes base bs s = .ok () t ∧ t.pc = s.pc ∧ (s.Running → t.Running) := by
  obtain ⟨m, ev, hs⟩ := storeBytes_ok bs h s
  exact ⟨_, hs, rfl, fun hrun => ⟨hrun.turn, hrun.notHalted⟩⟩

/-- Settles O12: the store leaves the core ready to fetch, and the two bytes at `pc` are the stored ones. -/
theorem storedWordIsWhatTheNextStepExecutes : Obligations.StoredWordIsWhatTheNextStepExecutes := by
  intro s hi lo hwf hrun hpc
  obtain ⟨t, hs, hpct, hrunt⟩ := storeBytes_completes (base := s.pc.toNat) (bs := [hi, lo]) (.inr (by simp; omega)) s
  have hbyte := storeBytes_byteAt s.pc.toNat [hi, lo] hwf
  rw [hs, Act.ok_state] at hbyte
  have hhi : t.byteAt s.pc.toNat = hi := by
    rw [hbyte, if_pos (by simp; omega)]; simp
  have hlo : t.byteAt (s.pc.toNat + 1) = lo := by
    rw [hbyte, if_pos (by simp; omega)]; simp
  exact ⟨t, hs, by rw [step_word (hrunt hrun) (by rwa [hpct]), hpct, hhi, hlo]⟩

/-- Settles O57: the memory clause of the frame. -/
theorem onlyTwoInstructionsStore : Obligations.OnlyTwoInstructionsStore := by
  intro i s t h hstore a
  have f := frameOf_exec h
  rw [State.byteAt, f.mem hstore, f.fontBase, State.byteAt]

end Sys2Proof.Machine

/-! # Encoding (spec/30_encoding.md) -/

namespace Sys2Proof

/-! ## Decoding what was encoded -/

/-- The round trip of every instruction, gathered from the lemma of each. -/
theorem decodeWord_encode {i : Instr} (h : WellFormed i) : decodeWord (encode i) = .instr i :=
  match i with
  | .cls => Laws.RoundTrip.cls h
  | .ret => Laws.RoundTrip.ret h
  | .sys nnn => Laws.RoundTrip.sys nnn h
  | .jp nnn => Laws.RoundTrip.jp nnn h
  | .call nnn => Laws.RoundTrip.call nnn h
  | .seImm x nn => Laws.RoundTrip.seImm x nn h
  | .sneImm x nn => Laws.RoundTrip.sneImm x nn h
  | .seReg x y => Laws.RoundTrip.seReg x y h
  | .ldImm x nn => Laws.RoundTrip.ldImm x nn h
  | .addImm x nn => Laws.RoundTrip.addImm x nn h
  | .ldReg x y => Laws.RoundTrip.ldReg x y h
  | .orReg x y => Laws.RoundTrip.orReg x y h
  | .andReg x y => Laws.RoundTrip.andReg x y h
  | .xorReg x y => Laws.RoundTrip.xorReg x y h
  | .addReg x y => Laws.RoundTrip.addReg x y h
  | .subReg x y => Laws.RoundTrip.subReg x y h
  | .shrReg x y => Laws.RoundTrip.shrReg x y h
  | .subnReg x y => Laws.RoundTrip.subnReg x y h
  | .shlReg x y => Laws.RoundTrip.shlReg x y h
  | .sneReg x y => Laws.RoundTrip.sneReg x y h
  | .ldI nnn => Laws.RoundTrip.ldI nnn h
  | .jpV0 nnn => Laws.RoundTrip.jpV0 nnn h
  | .rnd x nn => Laws.RoundTrip.rnd x nn h
  | .drw x y n => Laws.RoundTrip.drw x y n h
  | .skp x => Laws.RoundTrip.skp x h
  | .sknp x => Laws.RoundTrip.sknp x h
  | .ldVxDT x => Laws.RoundTrip.ldVxDT x h
  | .ldVxK x => Laws.RoundTrip.ldVxK x h
  | .ldDTVx x => Laws.RoundTrip.ldDTVx x h
  | .ldSTVx x => Laws.RoundTrip.ldSTVx x h
  | .addI x => Laws.RoundTrip.addI x h
  | .ldF x => Laws.RoundTrip.ldF x h
  | .ldB x => Laws.RoundTrip.ldB x h
  | .ldMemVx x => Laws.RoundTrip.ldMemVx x h
  | .ldVxMem x => Laws.RoundTrip.ldVxMem x h

/-- Two bytes in memory order whose word decodes (R57, R75). -/
theorem decode_of_decodeWord {hi lo : Byte} {i : Instr} (h : decodeWord (wordOfBytes hi lo) = .instr i)
    (rest : List Byte) : decode (hi :: lo :: rest) = .instr i rest := by
  rw [decode, h]

/-- Settles O2: the two bytes put together are the word again, and the word decodes to its instruction. -/
theorem decodeOfEncodeIsTheInstruction : Obligations.DecodeOfEncodeIsTheInstruction := by
  intro i rest hwf
  have hword : decodeWord (wordOfBytes (hiByte (encode i)) (loByte (encode i))) = .instr i := by
    rw [wordOfBytes_hi_lo, decodeWord_encode hwf]
  exact decode_of_decodeWord hword rest

/-! ## A word is put together again from its fields (R71, R72) -/

theorem nField_eq_iff {w : Word} {n : Fin 16} : nField w = n ↔ w.toNat % 16 = n.val := Fin.ext_iff

theorem nnField_eq_iff {w : Word} {nn : Byte} : nnField w = nn ↔ w.toNat % 256 = nn.toNat := by
  rw [← BitVec.toNat_inj, nnField, BitVec.toNat_setWidth]

theorem opField_lt (w : Word) : opField w < 16 := by
  have := w.isLt; rw [opField]; omega

section reassemble

variable {w : Word} {op : Nat}

theorem wordNNN_fields (h : opField w = op) : wordNNN op (nnnField w) = w := by
  apply BitVec.eq_of_toNat_eq
  rw [wordNNN_toNat (h ▸ opField_lt w), ← h, opField, nnnField, BitVec.toNat_setWidth]
  omega

theorem wordXNN_fields {nn : Byte} (h : opField w = op) (hnn : nnField w = nn) : wordXNN op (xField w) nn = w := by
  apply BitVec.eq_of_toNat_eq
  rw [wordXNN_toNat (h ▸ opField_lt w), ← h, ← nnField_eq_iff.1 hnn, opField]
  simp only [xField]
  omega

theorem wordXYN_fields {n : Fin 16} (h : opField w = op) (hn : nField w = n) :
    wordXYN op (xField w) (yField w) n = w := by
  apply BitVec.eq_of_toNat_eq
  rw [wordXYN_toNat (h ▸ opField_lt w), ← h, ← nField_eq_iff.1 hn, opField]
  simp only [xField, yField]
  omega

end reassemble

/-! ## Encoding what was decoded -/

section converse

variable {w : Word} {i : Instr}

theorem encode_of_decodeAlu (hop : opField w = 0x8) (h : decodeAlu w = .instr i) : WellFormed i ∧ encode i = w := by
  unfold decodeAlu at h
  repeat' split at h
  all_goals cases h
  all_goals exact ⟨rfl, wordXYN_fields hop (by assumption)⟩

theorem encode_of_decodeKey (hop : opField w = 0xE) (h : decodeKey w = .instr i) : WellFormed i ∧ encode i = w := by
  unfold decodeKey at h
  repeat' split at h
  all_goals cases h
  all_goals exact ⟨rfl, wordXNN_fields hop (by assumption)⟩

theorem encode_of_decodeMisc (hop : opField w = 0xF) (h : decodeMisc w = .instr i) : WellFormed i ∧ encode i = w := by
  unfold decodeMisc at h
  repeat' split at h
  all_goals cases h
  all_goals exact ⟨rfl, wordXNN_fields hop (by assumption)⟩

/-- Family 0 past its two whole words: `SYS` with a 12-bit number that is neither of theirs (R74 row 3). -/
theorem encode_sys_nnnField (hop : opField w = 0x0) (hcls : w ≠ 0x00E0#16) (hret : w ≠ 0x00EE#16) :
    WellFormed (.sys (nnnField w)) ∧ encode (.sys (nnnField w)) = w := by
  have hw : wordNNN 0x0 (nnnField w) = w := wordNNN_fields hop
  have hne {k : Addr12} (hk : w ≠ wordNNN 0x0 k) : nnnField w ≠ k := fun h => hk (by rw [← h, hw])
  exact ⟨by simp [WellFormed, Instr.isWellFormed, hne (k := 0x0E0#12) hcls, hne (k := 0x0EE#12) hret], hw⟩

theorem encode_of_decodeWord (h : decodeWord w = .instr i) : WellFormed i ∧ encode i = w := by
  match hop : opField w with
  | 0x0 =>
    by_cases hcls : w = 0x00E0#16
    · subst hcls; cases h; exact ⟨rfl, rfl⟩
    by_cases hret : w = 0x00EE#16
    · subst hret; cases h; exact ⟨rfl, rfl⟩
    rw [decodeWord_zero hop hcls hret] at h
    cases h
    exact encode_sys_nnnField hop hcls hret
  | 0x1 => rw [decodeWord_jp hop] at h; cases h; exact ⟨rfl, wordNNN_fields hop⟩
  | 0x2 => rw [decodeWord_call hop] at h; cases h; exact ⟨rfl, wordNNN_fields hop⟩
  | 0x3 => rw [decodeWord_seImm hop] at h; cases h; exact ⟨rfl, wordXNN_fields hop rfl⟩
  | 0x4 => rw [decodeWord_sneImm hop] at h; cases h; exact ⟨rfl, wordXNN_fields hop rfl⟩
  | 0x5 =>
    rw [decodeWord_seReg hop] at h
    split at h
    next hn => cases h; exact ⟨rfl, wordXYN_fields hop hn⟩
    next => cases h
  | 0x6 => rw [decodeWord_ldImm hop] at h; cases h; exact ⟨rfl, wordXNN_fields hop rfl⟩
  | 0x7 => rw [decodeWord_addImm hop] at h; cases h; exact ⟨rfl, wordXNN_fields hop rfl⟩
  | 0x8 => exact encode_of_decodeAlu hop (decodeWord_alu hop ▸ h)
  | 0x9 =>
    rw [decodeWord_sneReg hop] at h
    split at h
    next hn => cases h; exact ⟨rfl, wordXYN_fields hop hn⟩
    next => cases h
  | 0xA => rw [decodeWord_ldI hop] at h; cases h; exact ⟨rfl, wordNNN_fields hop⟩
  | 0xB => rw [decodeWord_jpV0 hop] at h; cases h; exact ⟨rfl, wordNNN_fields hop⟩
  | 0xC => rw [decodeWord_rnd hop] at h; cases h; exact ⟨rfl, wordXNN_fields hop rfl⟩
  | 0xD => rw [decodeWord_drw hop] at h; cases h; exact ⟨rfl, wordXYN_fields hop rfl⟩
  | 0xE => exact encode_of_decodeKey hop (decodeWord_key hop ▸ h)
  | 0xF => exact encode_of_decodeMisc hop (decodeWord_misc hop ▸ h)
  | _ + 16 => have := opField_lt w; omega

end converse

/-- Settles O3: in each family of R75 the word is put together again from the fields that the decoder read. -/
theorem everyDecodedWordIsItsEncoding : Obligations.EveryDecodedWordIsItsEncoding :=
  fun _ _ h => encode_of_decodeWord h

/-! ## The words that raise `UnknownOpcode` (R76, R77) -/

section illegal

variable {w : Word}

@[simp] theorem ite_instr_eq_illegal {c : Prop} [Decidable c] {i : Instr} {r : DecodeResult} {v : Word} :
    (if c then .instr i else r) = DecodeResult.illegal v ↔ ¬c ∧ r = .illegal v := by
  by_cases h : c <;> simp [h]

theorem decodeAlu_eq_illegal_iff :
    decodeAlu w = .illegal w ↔ w.toNat % 16 ∈ [0x8, 0x9, 0xA, 0xB, 0xC, 0xD, 0xF] := by
  simp [decodeAlu, nField_eq_iff]
  omega

theorem decodeKey_eq_illegal_iff : decodeKey w = .illegal w ↔ w.toNat % 256 ∉ [0x9E, 0xA1] := by
  simp [decodeKey, nnField_eq_iff]

theorem decodeMisc_eq_illegal_iff : decodeMisc w = .illegal w ↔
    w.toNat % 256 ∉ [0x07, 0x0A, 0x15, 0x18, 0x1E, 0x29, 0x33, 0x55, 0x65] := by
  simp [decodeMisc, nnField_eq_iff]

/-- R76's table without its first line: in each family of R75 only that family's clause is left to decide. -/
theorem decodeWord_eq_illegal_iff : decodeWord w = .illegal w ↔
    ((opField w = 0x5 ∨ opField w = 0x9) ∧ w.toNat % 16 ≠ 0) ∨
      (opField w = 0x8 ∧ w.toNat % 16 ∈ [0x8, 0x9, 0xA, 0xB, 0xC, 0xD, 0xF]) ∨
      (opField w = 0xE ∧ w.toNat % 256 ∉ [0x9E, 0xA1]) ∨
      (opField w = 0xF ∧ w.toNat % 256 ∉ [0x07, 0x0A, 0x15, 0x18, 0x1E, 0x29, 0x33, 0x55, 0x65]) := by
  match hop : opField w with
  | 0x5 => simp [decodeWord_seReg hop, nField_eq_iff]
  | 0x8 => simp [decodeWord_alu hop, decodeAlu_eq_illegal_iff]
  | 0x9 => simp [decodeWord_sneReg hop, nField_eq_iff]
  | 0xE => simp [decodeWord_key hop, decodeKey_eq_illegal_iff]
  | 0xF => simp [decodeWord_misc hop, decodeMisc_eq_illegal_iff]
  | 0x0 | 0x1 | 0x2 | 0x3 | 0x4 | 0x6 | 0x7 | 0xA | 0xB | 0xC | 0xD =>
    simp [decodeWord_family hop, decodeFamily]
  | _ + 16 => have := opField_lt w; omega

/-- The first line of R76's table, the words of `SYS`. A word that decodes to `SYS` is its encoding, so it lies in
family 0. -/
theorem decodeWord_eq_sys_iff : (∃ nnn, decodeWord w = .instr (.sys nnn)) ↔
    opField w = 0x0 ∧ w ≠ 0x00E0#16 ∧ w ≠ 0x00EE#16 := by
  constructor
  · rintro ⟨nnn, h⟩
    have hw : wordNNN 0x0 nnn = w := (encode_of_decodeWord h).2
    refine ⟨hw ▸ opField_NNN (by decide) nnn, ?_, ?_⟩
    · rintro rfl; cases h
    · rintro rfl; cases h
  · rintro ⟨hop, hcls, hret⟩
    exact ⟨_, decodeWord_zero hop hcls hret⟩

end illegal

end Sys2Proof

namespace Sys2Proof.Machine

variable {w : Word} {s : State}

theorem execWord_instr {i : Instr} (h : decodeWord w = .instr i) : execWord w s = exec i s := by
  rw [execWord, h]

theorem execWord_illegal (h : decodeWord w = .illegal w) : execWord w s = .next (s.raiseOpcode w) := by
  rw [execWord, h]

/-- `SYS nnn` raises with `0x0nnn`, which is the word it was decoded from (R77). -/
theorem execWord_sys {nnn : Addr12} (h : decodeWord w = .instr (.sys nnn)) :
    execWord w s = .next (s.raiseOpcode w) := by
  have hw : wordNNN 0x0 nnn = w := (encode_of_decodeWord h).2
  have haddr : addrImm nnn = w := by
    apply BitVec.eq_of_toNat_eq
    rw [← hw, wordNNN_toNat (by decide), addrImm, BitVec.toNat_setWidth_of_le (by decide)]
    omega
  rw [execWord_instr h, exec, execSys, haddr]

/-- Settles O4: the table's first line is the words of `SYS`, its other lines are the words that decode to nothing. -/
theorem illegalWordsRaiseUnknownOpcode : Obligations.IllegalWordsRaiseUnknownOpcode := by
  intro w s op n nn illegal
  have htable : illegal ↔ (∃ nnn, decodeWord w = .instr (.sys nnn)) ∨ decodeWord w = .illegal w :=
    or_congr decodeWord_eq_sys_iff.symm decodeWord_eq_illegal_iff.symm
  rw [htable]
  constructor
  · rintro (⟨nnn, hsys⟩ | hill)
    · exact execWord_sys hsys
    · exact execWord_illegal hill
  · intro hlegal
    obtain ⟨hsys, hill⟩ := not_or.1 hlegal
    cases hd : decodeWord w with
    | instr i => exact ⟨i, rfl, fun nnn hi => hsys ⟨nnn, hi ▸ hd⟩, execWord_instr hd⟩
    | illegal v => exact absurd (decodeWord_illegal hd ▸ hd) hill

end Sys2Proof.Machine

namespace Sys2Proof

/-- Settles O1: the twelve words are evaluated. -/
theorem wordsOfTheMapDecode : Obligations.WordsOfTheMapDecode := by
  unfold Obligations.WordsOfTheMapDecode
  decide

end Sys2Proof

/-! # The cycle (spec/40_cycle.md) -/

namespace Sys2Proof.Machine

variable {s : State}

/-! ## Fetch, advance, decode, execute (R90 to R94) -/

/-- Settles O5: both bytes exist up to 4094; above it the first missing address is `pc`, or 4096 at 4095. -/
theorem fetchReadsTwoBytesBigEndian : Obligations.FetchReadsTwoBytesBigEndian := by
  intro s
  split
  · rw [fetch_halted (by omega), Nat.max_eq_left (by omega)]; rfl
  · split
    next hlast => rw [fetch_halted (by omega), hlast]; rfl
    next => exact fetch_ok (by omega)

/-- Settles O6: the word at `pc` is executed, and it is the instruction's. -/
theorem stepRunsTheDecodedInstruction : Obligations.StepRunsTheDecodedInstruction := by
  intro s i hrun hpc hword
  rw [step_word hrun hpc, execWord_instr hword]

/-- Settles O7: the word at `pc` is executed, and it is the illegal word that the decoder names. -/
theorem stepAtAnUndecodableWordFaults : Obligations.StepAtAnUndecodableWordFaults := by
  intro s w hrun hpc hword
  obtain rfl := decodeWord_illegal hword
  rw [step_word hrun hpc, execWord_illegal hword]
  rfl

theorem cpuStep_unfetchable (hrun : s.fault = none) (hpc : 4094 < s.pc.toNat) :
    cpuStep s = .next (s.raiseAddress (max s.pc.toNat 4096)) := by
  rw [cpuStep, hrun, fetch_halted hpc]

/-- Settles O8: the fetch halts before `pc` is advanced. -/
theorem failedFetchLeavesPcUnadvanced : Obligations.FailedFetchLeavesPcUnadvanced := by
  intro s hrun hpc
  rw [step_cpu hrun.turn]
  exact cpuStep_unfetchable hrun.notHalted hpc

/-! ## The halted core (R97, R231) -/

theorem cpuStep_of_halted (h : s.fault ≠ none) : cpuStep s = .next s := by
  obtain ⟨f, hf⟩ := Option.ne_none_iff_exists'.1 h
  rw [cpuStep, hf]

/-- Settles O9: what the CPU's turn leaves of the state is halted as before. -/
theorem haltedCoreIgnoresSteps : Obligations.HaltedCoreIgnoresSteps := by
  intro s hturn h
  rw [step_cpu hturn]
  exact cpuStep_of_halted h

/-- In a halted state only a boot reaches more than the timers and the keys. -/
theorem perform_of_halted (h : s.fault ≠ none) {m : Move} (hboot : ∀ program, m ≠ .boot program) :
    ∃ dt st keys, perform m s = .next { s with DT := dt, ST := st, KEY := keys } := by
  cases m with
  | cpu => exact ⟨s.DT, s.ST, s.KEY, cpuStep_of_halted h⟩
  | tick => exact ⟨_, _, s.KEY, rfl⟩
  | key k down => exact ⟨s.DT, s.ST, _, rfl⟩
  | boot program => exact absurd rfl (hboot program)

theorem step_of_halted (h : s.fault ≠ none) (hboot : ∀ program rest, s.schedule ≠ .boot program :: rest) :
    ∃ dt st keys, step s =
      .next { s with DT := dt, ST := st, KEY := keys, schedule := s.schedule.tail, events := [] } := by
  match hs : s.schedule with
  | [] => exact ⟨s.DT, s.ST, s.KEY, hs ▸ haltedCoreIgnoresSteps s (.inl hs) h⟩
  | m :: rest =>
    obtain ⟨dt, st, keys, hm⟩ := perform_of_halted (s := { s.clearEvents with schedule := rest }) h
      (m := m) fun program hprogram => hboot program rest (hprogram ▸ hs)
    exact ⟨dt, st, keys, by rw [step, hs]; exact hm⟩

/-- Settles O11: none of the named fields is one that a move from a halted state changes. -/
theorem onlyAResetLeavesTheHaltedState : Obligations.OnlyAResetLeavesTheHaltedState := by
  intro s t h hstep hboot
  obtain ⟨dt, st, keys, hnext⟩ := step_of_halted h hboot
  cases hnext.symm.trans hstep
  exact ⟨rfl, rfl, rfl, rfl, rfl, rfl, rfl, rfl, rfl⟩

end Sys2Proof.Machine

/-! # Control flow (spec/41_control_flow.md) -/

namespace Sys2Proof.Machine

variable {s : State}

/-! ## Jump targets (R102, R103, R108) -/

theorem addrImm_eq_ofNat (nnn : Addr12) : addrImm nnn = BitVec.ofNat 16 nnn.toNat := (BitVec.ofNat_toNat 16 nnn).symm

theorem addrImm_toNat (nnn : Addr12) : (addrImm nnn).toNat = nnn.toNat := BitVec.toNat_setWidth_of_le (by decide)

/-- A write of `pc` as one update of the state. -/
theorem setPc_update (s : State) (a : Word) : ∃ evs, s.setPc a = { s with pc := a, events := s.events ++ evs } := ⟨_, rfl⟩

/-- Settles O17: the word is the encoding of `JP nnn`, whose one operation is the write of `pc`. -/
theorem jpSetsPcToItsTarget : Obligations.JpSetsPcToItsTarget := by
  intro nnn s
  obtain ⟨evs, hpc⟩ := setPc_update s (addrImm nnn)
  refine ⟨decodeWord_encode (i := .jp nnn) rfl, evs, ?_⟩
  rw [exec, execJp, hpc, addrImm_eq_ofNat]

/-- The target of `JP V0, nnn` is the integer sum: a 12-bit and an 8-bit value do not reach 65536 (R108). -/
theorem addrImm_add_setWidth_toNat (nnn : Addr12) (v : Byte) :
    (addrImm nnn + v.setWidth 16).toNat = nnn.toNat + v.toNat := by
  have hnnn := nnn.isLt
  have hv := v.isLt
  have hwide : (v.setWidth 16).toNat = v.toNat := BitVec.toNat_setWidth_of_le (by decide)
  rw [BitVec.toNat_add, addrImm_toNat, hwide]
  omega

/-- Settles O21: only `pc` is written, and its new value is the integer sum. -/
theorem jpV0AddsRegisterZero : Obligations.JpV0AddsRegisterZero := by
  intro nnn s
  obtain ⟨evs, hpc⟩ := setPc_update s (addrImm nnn + (s.reg 0).setWidth 16)
  exact ⟨evs, _, rfl, hpc, addrImm_add_setWidth_toNat nnn (s.reg 0)⟩

/-! ## Calls and returns (R101, R103, R110) -/

theorem exec_call_castSucc (nnn : Addr12) {d : Fin 16} (h : s.SP = d.castSucc) : exec (.call nnn) s =
    .next ((s.setCalls d.succ (s.STACK.set d.val s.pc)).setPc (addrImm nnn)) := by
  rw [exec, execCall, push_castSucc h]; rfl

theorem exec_ret_succ {d : Fin 16} (h : s.SP = d.succ) : exec .ret s =
    .next ((s.setCalls d.castSucc s.STACK).setPc s.STACK[d.val]) := by
  rw [exec, execRet, pop_succ h]; rfl

/-- A stack fault as one update of the latch and the model's own counter (R227). -/
theorem raiseStack_update (s : State) (f : Fault) : ∃ info n,
    s.raiseStack f = { s with fault := some f, faultInfo := info, draws := n } := ⟨_, _, rfl⟩

/-- Settles O16: a return above depth 0, and at depth 0. -/
theorem retReturnsToThePoppedAddress : Obligations.RetReturnsToThePoppedAddress := by
  refine ⟨decodeWord_encode (i := .ret) rfl, fun s d hd => ?_, fun s hempty => ?_⟩
  · obtain ⟨evs, hpc⟩ := setPc_update (s.setCalls d.castSucc s.STACK) s.STACK[d.val]
    exact ⟨evs, by rw [exec_ret_succ hd, hpc]; rfl⟩
  · obtain ⟨info, n, hraise⟩ := raiseStack_update s .stackUnderflow
    exact ⟨info, n, by rw [exec_ret_empty (congrArg Fin.val hempty), hraise]⟩

/-- Settles O18: a call at a depth below 16, and at depth 16. -/
theorem callPushesThePostFetchPc : Obligations.CallPushesThePostFetchPc := by
  intro nnn s
  refine ⟨decodeWord_encode (i := .call nnn) rfl, fun d hd => ?_, fun hfull => ?_⟩
  · obtain ⟨evs, hpc⟩ := setPc_update (s.setCalls d.succ (s.STACK.set d.val s.pc)) (addrImm nnn)
    exact ⟨evs, by rw [exec_call_castSucc nnn hd, hpc, addrImm_eq_ofNat]; rfl⟩
  · obtain ⟨info, n, hraise⟩ := raiseStack_update s .stackOverflow
    exact ⟨info, n, by rw [exec_call_full nnn (congrArg Fin.val hfull), hraise]⟩

/-- Settles O19: the return pops the entry that the call stored at the depth of the start. -/
theorem retUndoesCall : Obligations.RetUndoesCall := by
  intro nnn s t p hs hcall
  obtain ⟨d, hd⟩ : ∃ d : Fin 16, s.SP = d.castSucc := ⟨⟨s.SP.val, hs⟩, rfl⟩
  cases (exec_call_castSucc nnn hd).symm.trans hcall
  exact ⟨_, exec_ret_succ (d := d) rfl, Vector.getElem_set_self d.isLt, hd.symm, rfl⟩

/-! ## Skips (R98, R104 to R107) -/

/-- A step that ends in a skip, the condition read as the proposition it decides. -/
theorem next_skipIf_update (s : State) {c : Bool} {p : Prop} [Decidable p] (h : c = true ↔ p) : ∃ evs,
    (.next (s.skipIf c) : StepOutcome) =
      .next { s with pc := if p then s.pc + 2 else s.pc, events := s.events ++ evs } := by
  obtain ⟨evs, hskip⟩ := skipIf_update s c
  exact ⟨evs, by rw [hskip]; simp only [h]⟩

/-- Settles O20: each of the four conditions decides its comparison. -/
theorem skipsCompareAndSkip : Obligations.SkipsCompareAndSkip := fun _ _ _ s =>
  ⟨next_skipIf_update s beq_iff_eq, next_skipIf_update s bne_iff_ne, next_skipIf_update s beq_iff_eq,
    next_skipIf_update s bne_iff_ne⟩

/-! ## `SYS nnn` (R109, R77) -/

/-- Settles O22: the 16-bit word `0x0nnn`, widened to the 17 bits of the information, is `nnn`. -/
theorem sysRaisesUnknownOpcode : Obligations.SysRaisesUnknownOpcode := by
  intro nnn s
  have hinfo : (addrImm nnn).setWidth 17 = BitVec.ofNat 17 nnn.toNat := by
    rw [← BitVec.ofNat_toNat, addrImm_toNat]
  rw [exec, execSys, State.raiseOpcode, State.raise, hinfo]

end Sys2Proof.Machine

/-! # Arithmetic and logic (spec/42_arith_logic.md) -/

namespace Sys2Proof

/-- A word of family 8 as the pattern column of R74 writes it, the sub-opcode beside the family. -/
theorem decodeWord_8XYN (x y : Reg) (n : Fin 16) {i : Instr} (h : decodeWord (wordXYN 0x8 x y n) = .instr i) :
    decodeWord (BitVec.ofNat 16 (0x8000 + n.val + x.val * 256 + y.val * 16)) = .instr i := by
  have hsum : 0x8000 + n.val + x.val * 256 + y.val * 16 = 0x8 * 4096 + x.val * 256 + y.val * 16 + n.val := by omega
  rw [hsum, ← h, wordXYN]

end Sys2Proof

namespace Sys2Proof.Machine

/-! ## Results as the numbers of R120: sums, differences and shifts modulo 256 -/

theorem byte_eq_ofNat {v : Byte} {k : Nat} (h : v.toNat = k) : v = BitVec.ofNat 8 k := by
  rw [← h, BitVec.ofNat_toNat, BitVec.setWidth_eq]

section results

variable (a b : Byte)

theorem add_eq_ofNat : a + b = BitVec.ofNat 8 ((a.toNat + b.toNat) % 256) := byte_eq_ofNat (BitVec.toNat_add a b)

theorem sub_eq_ofNat : a - b = BitVec.ofNat 8 ((256 + a.toNat - b.toNat) % 256) := by
  have hb := b.isLt
  apply byte_eq_ofNat
  rw [BitVec.toNat_sub]
  omega

theorem shiftRight_one_eq_ofNat : a >>> 1 = BitVec.ofNat 8 (a.toNat / 2) := byte_eq_ofNat (BitVec.toNat_ushiftRight a 1)

theorem shiftLeft_one_eq_ofNat : a <<< 1 = BitVec.ofNat 8 (a.toNat * 2 % 256) := by
  apply byte_eq_ofNat
  rw [BitVec.toNat_shiftLeft, Nat.shiftLeft_eq]

/-! ## Flags as bytes (R22) -/

theorem flagByte_decide (p : Prop) [Decidable p] : flagByte (decide p) = if p then 1#8 else 0#8 := by
  simp only [flagByte, decide_eq_true_eq]

theorem flagByte_eq_ofNat (flag : Bool) : flagByte flag = BitVec.ofNat 8 flag.toNat := by cases flag <;> rfl

/-- The flag of a bit is the bit as a number. -/
theorem flagByte_getLsbD (k : Nat) : flagByte (a.getLsbD k) = BitVec.ofNat 8 (a.toNat / 2 ^ k % 2) := by
  rw [flagByte_eq_ofNat, BitVec.getLsbD, Nat.toNat_testBit]

theorem flagByte_shiftedOutRight : flagByte (shiftedOutRight a) = BitVec.ofNat 8 (a.toNat % 2) := by
  rw [shiftedOutRight, flagByte_getLsbD, Nat.pow_zero, Nat.div_one]

theorem flagByte_shiftedOutLeft : flagByte (shiftedOutLeft a) = BitVec.ofNat 8 (a.toNat / 128) := by
  have htop : a.toNat / 2 ^ 7 % 2 = a.toNat / 128 := Nat.mod_eq_of_lt (Nat.div_lt_of_lt_mul a.isLt)
  rw [shiftedOutLeft, flagByte_getLsbD, htop]

end results

/-! ## The two shapes of a step: one write, or the flag and then the result -/

/-- A step that ends in one register write, the value read as `r`. -/
theorem next_setV_update (s : State) (x : Reg) {v r : Byte} (hr : v = r) : ∃ evs,
    (.next (s.setV x v) : StepOutcome) = .next { s with V := s.V.set x.val r, events := s.events ++ evs } :=
  ⟨_, by rw [← hr]; rfl⟩

/-- A step that ends in the flag-then-result write, the flag read as the byte `f` and the result as `r`. -/
theorem next_setFlagThenResult_update (s : State) (x : Reg) {flag : Bool} {v f r : Byte} (hf : flagByte flag = f)
    (hr : v = r) : ∃ evs,
    (.next (s.setFlagThenResult x flag v) : StepOutcome) =
      .next { s with V := (s.V.set 15 f).set x.val r, events := s.events ++ evs } := by
  obtain ⟨evs, hset⟩ := setFlagThenResult_update s x flag v
  exact ⟨evs, by rw [hset, hf, hr]⟩

/-! ## Loads (R121, R123) and the instructions without a flag (R122, R124 to R126) -/

/-- Settles O23: both words are encodings, and both instructions are one write of `V[x]`. -/
theorem loadsCopyTheirSource : Obligations.LoadsCopyTheirSource := fun x y nn s =>
  ⟨decodeWord_encode (i := .ldImm x nn) rfl, decodeWord_8XYN x y 0x0 (decodeWord_encode (i := .ldReg x y) rfl),
    next_setV_update s x rfl, next_setV_update s x rfl⟩

/-- Settles O24: the byte sum is the sum of the numbers modulo 256. -/
theorem addImmediateWraps : Obligations.AddImmediateWraps := fun x nn s =>
  next_setV_update s x (add_eq_ofNat (s.reg x) nn)

/-- Settles O25: each instruction is one write of `V[x]`, and each operation acts on every bit alone. -/
theorem logicIsBitByBit : Obligations.LogicIsBitByBit := by
  intro x y s
  obtain ⟨e1, hor⟩ := next_setV_update s x (v := s.reg x ||| s.reg y) rfl
  obtain ⟨e2, hand⟩ := next_setV_update s x (v := s.reg x &&& s.reg y) rfl
  obtain ⟨e3, hxor⟩ := next_setV_update s x (v := s.reg x ^^^ s.reg y) rfl
  exact ⟨_, _, _, e1, e2, e3, hor, hand, hxor, fun _ _ => ⟨BitVec.getLsbD_or, BitVec.getLsbD_and, BitVec.getLsbD_xor⟩⟩

/-! ## Flag, then result (R120, R127 to R131) -/

/-- Settles O26: the flag is the carry and the result the sum, both of the operands as they were before the step. -/
theorem addSetsCarryThenSum : Obligations.AddSetsCarryThenSum := fun x y s =>
  ⟨decodeWord_8XYN x y 0x4 (decodeWord_encode (i := .addReg x y) rfl),
    next_setFlagThenResult_update s x (flagByte_decide _) (add_eq_ofNat (s.reg x) (s.reg y))⟩

/-- Settles O27: the same two facts for the difference, with the operands in both orders. -/
theorem subtractionsSetNoBorrowThenDifference : Obligations.SubtractionsSetNoBorrowThenDifference := fun x y s =>
  ⟨next_setFlagThenResult_update s x (flagByte_decide _) (sub_eq_ofNat (s.reg x) (s.reg y)),
    next_setFlagThenResult_update s x (flagByte_decide _) (sub_eq_ofNat (s.reg y) (s.reg x))⟩

/-- Settles O28: flag and result are the two parts of `V[y]`, the bit shifted out and the bits that stay. -/
theorem shiftsCopyThenShift : Obligations.ShiftsCopyThenShift := fun x y s =>
  ⟨decodeWord_8XYN x y 0x6 (decodeWord_encode (i := .shrReg x y) rfl),
    decodeWord_8XYN x y 0xE (decodeWord_encode (i := .shlReg x y) rfl),
    next_setFlagThenResult_update s x (flagByte_shiftedOutRight (s.reg y)) (shiftRight_one_eq_ofNat (s.reg y)),
    next_setFlagThenResult_update s x (flagByte_shiftedOutLeft (s.reg y)) (shiftLeft_one_eq_ofNat (s.reg y))⟩

end Sys2Proof.Machine

/-! # Index register and memory (spec/43_index_memory.md) -/

namespace Sys2Proof.Machine

variable {s : State}

/-! ## The index register (R141 to R143) -/

/-- Settles O29: the word is the encoding of `LD I, nnn`, whose one operation is the write of `I`. -/
theorem ldIndexLoads : Obligations.LdIndexLoads := by
  intro nnn s
  refine ⟨decodeWord_encode (i := .ldI nnn) rfl, ?_⟩
  rw [exec, execLdI, addrImm_eq_ofNat, State.setI]

theorem word_add_setWidth_eq_ofNat (a : Word) (v : Byte) :
    a + v.setWidth 16 = BitVec.ofNat 16 ((a.toNat + v.toNat) % 65536) := by
  have hwide : (v.setWidth 16).toNat = v.toNat := BitVec.toNat_setWidth_of_le (by decide)
  rw [← BitVec.setWidth_eq (a + v.setWidth 16), ← BitVec.ofNat_toNat, BitVec.toNat_add, hwide]

/-- Settles O30: the sum of the words is the sum of the numbers modulo 65536. -/
theorem addIndexWrapsAt16Bits : Obligations.AddIndexWrapsAt16Bits := by
  intro x s
  rw [exec, execAddI, word_add_setWidth_eq_ofNat, State.setI, State.reg]

/-- No glyph address reaches 65536, wherever the font lies. -/
theorem glyphAddress_toNat (fontBase : FontBase) (d : Fin 16) :
    (glyphAddress fontBase d).toNat = fontBase.val + 5 * d.val := by
  rw [glyphAddress, BitVec.toNat_ofNat]
  omega

/-- Settles O31: only `I` is written, with the address of the glyph of the low nibble. -/
theorem ldFontFindsTheGlyph : Obligations.LdFontFindsTheGlyph := fun x s =>
  ⟨_, rfl, rfl, glyphAddress_toNat s.fontBase (lowNibble (s.reg x))⟩

/-! ## The state after a store, completed or halted (R144, R145, R228) -/

section store

variable {base : Nat} {bs : List Byte}

theorem storeBytes_state_of_fits (h : base + bs.length ≤ 4096) (s : State) :
    (storeBytes base bs s).state =
      { s with mem := (storeBytes base bs s).state.mem, events := (storeBytes base bs s).state.events } := by
  obtain ⟨m, ev, hs⟩ := storeBytes_ok bs (.inr h) s
  rw [hs, Act.ok_state]

theorem storeBytes_state_of_overflows (hne : bs ≠ []) (h : 4096 < base + bs.length) (s : State) :
    (storeBytes base bs s).state =
      { s with
        mem := (storeBytes base bs s).state.mem, events := (storeBytes base bs s).state.events
        fault := some .addressOutOfBounds, faultInfo := BitVec.ofNat 17 (max base 4096) } := by
  obtain ⟨m, ev, hs⟩ := storeBytes_halted bs hne h s
  rw [hs, Act.halted_state]

theorem storeBytes_byteAt_inside (hwf : Memory.wf s.fontBase s.mem) {k : Nat} (hk : k < bs.length)
    (hin : base + k ≤ 4095) : (storeBytes base bs s).state.byteAt (base + k) = bs.getD k 0 := by
  rw [storeBytes_byteAt base bs hwf, if_pos (by omega), Nat.add_sub_cancel_left]

theorem storeBytes_byteAt_outside (hwf : Memory.wf s.fontBase s.mem) {a : Nat}
    (ha : a < base ∨ base + bs.length ≤ a ∨ 4095 < a) : (storeBytes base bs s).state.byteAt a = s.byteAt a := by
  rw [storeBytes_byteAt base bs hwf, if_neg (by omega)]

end store

/-! ## The decimal digits (R144) -/

theorem byteOfNat_toNat {k : Nat} (h : k < 256) : (BitVec.ofNat 8 k).toNat = k := by
  rw [BitVec.toNat_ofNat, Nat.mod_eq_of_lt h]

/-- The digits as numbers: hundreds, tens and ones. -/
theorem bcdDigits_toNat (v : Byte) :
    ((bcdDigits v).getD 0 0).toNat = v.toNat / 100 ∧ ((bcdDigits v).getD 1 0).toNat = v.toNat / 10 % 10 ∧
      ((bcdDigits v).getD 2 0).toNat = v.toNat % 10 := by
  have hv := v.isLt
  exact ⟨byteOfNat_toNat (by omega), byteOfNat_toNat (by omega), byteOfNat_toNat (by omega)⟩

/-- The digits read back as numbers, each at its address if that address exists. -/
theorem storeBcd_byteAt_toNat (hwf : Memory.wf s.fontBase s.mem) (base : Nat) (v : Byte) :
    (base ≤ 4095 → ((storeBytes base (bcdDigits v) s).state.byteAt base).toNat = v.toNat / 100) ∧
      (base + 1 ≤ 4095 → ((storeBytes base (bcdDigits v) s).state.byteAt (base + 1)).toNat = v.toNat / 10 % 10) ∧
      (base + 2 ≤ 4095 → ((storeBytes base (bcdDigits v) s).state.byteAt (base + 2)).toNat = v.toNat % 10) := by
  obtain ⟨hundreds, tens, ones⟩ := bcdDigits_toNat v
  have hstored : ∀ k < 3, base + k ≤ 4095 →
      (storeBytes base (bcdDigits v) s).state.byteAt (base + k) = (bcdDigits v).getD k 0 :=
    fun _ hk => storeBytes_byteAt_inside hwf hk
  refine ⟨fun hin => ?_, fun hin => ?_, fun hin => ?_⟩
  · exact (congrArg BitVec.toNat (hstored 0 (by decide) hin)).trans hundreds
  · rw [hstored 1 (by decide) hin, tens]
  · rw [hstored 2 (by decide) hin, ones]

theorem exec_ldB_eq (x : Reg) (s : State) :
    exec (.ldB x) s = .next (storeBytes s.I.toNat (bcdDigits (s.reg x)) s).state := rfl

/-- Settles O32: all three digits fit. -/
theorem ldBcdStoresThreeDigits : Obligations.LdBcdStoresThreeDigits := by
  intro x s hwf hfits
  obtain ⟨hundreds, tens, ones⟩ := storeBcd_byteAt_toNat hwf s.I.toNat (s.reg x)
  refine ⟨_, exec_ldB_eq x s, storeBytes_state_of_fits ?_ s, hundreds (by omega), tens (by omega), ones hfits, ?_⟩
  · rw [bcdDigits_length]; omega
  · intro a ha
    exact storeBytes_byteAt_outside hwf (by rw [bcdDigits_length]; omega)

/-! ## Windows (R145, R146) -/

/-- A stored register, read back. -/
theorem storeWindow_byteAt (hwf : Memory.wf s.fontBase s.mem) {x k : Reg} {base : Nat} (hk : k ≤ x)
    (hin : base + k.val ≤ 4095) : (storeBytes base (s.window x) s).state.byteAt (base + k.val) = s.V[k.val] := by
  have hlen : k.val < (s.window x).length := by rw [window_length]; exact Nat.lt_succ_of_le hk
  rw [storeBytes_byteAt_inside hwf hlen hin, window_getD s hk, State.reg]

theorem exec_ldMemVx_eq (x : Reg) (s : State) :
    exec (.ldMemVx x) s = .next (storeBytes s.I.toNat (s.window x) s).state := rfl

theorem exec_ldVxMem_eq (x : Reg) (s : State) :
    exec (.ldVxMem x) s = .next (loadRegs s.I.toNat (windowRegs x) s).state := rfl

/-- Settles O33: the whole window fits. -/
theorem storeWindowStoresRegisters : Obligations.StoreWindowStoresRegisters := by
  intro x s hwf hfits
  refine ⟨_, exec_ldMemVx_eq x s, storeBytes_state_of_fits ?_ s, fun k hk => ?_, fun a ha => ?_⟩
  · rw [window_length]; omega
  · exact storeWindow_byteAt hwf hk (Nat.le_trans (Nat.add_le_add_left hk _) hfits)
  · exact storeBytes_byteAt_outside hwf (by rw [window_length]; omega)

/-- Settles O35: the BCD store and the window store, each past the end of the memory. -/
theorem storesBeforeAnAddressFaultStay : Obligations.StoresBeforeAnAddressFaultStay := by
  intro x s hwf
  refine ⟨fun hout => ?_, fun hout => ?_⟩
  · obtain ⟨hundreds, tens, -⟩ := storeBcd_byteAt_toNat hwf s.I.toNat (s.reg x)
    have hlen := bcdDigits_length (s.reg x)
    refine ⟨_, exec_ldB_eq x s, storeBytes_state_of_overflows (List.ne_nil_of_length_eq_add_one hlen) ?_ s, hundreds,
      tens, fun a ha => storeBytes_byteAt_outside hwf (ha.imp_right .inr)⟩
    rw [hlen]; omega
  · have hlen := window_length s x
    refine ⟨_, exec_ldMemVx_eq x s, storeBytes_state_of_overflows (List.ne_nil_of_length_eq_add_one hlen) ?_ s,
      fun k hin => storeWindow_byteAt hwf (Fin.le_def.mpr (by omega)) hin,
      fun a ha => storeBytes_byteAt_outside hwf (ha.imp_right .inr)⟩
    rw [hlen]; omega

/-- Settles O34: the registers of the window are those numbered up to `x`. -/
theorem loadWindowLoadsRegisters : Obligations.LoadWindowLoadsRegisters := by
  intro x s hfits
  have hbytes : ∀ r ∈ windowRegs x, s.I.toNat + r.val ≤ 4095 := fun r hr =>
    Nat.le_trans (Nat.add_le_add_left (mem_windowRegs.mp hr) _) hfits
  obtain ⟨V, ev, hs, hV⟩ := loadRegs_ok (windowRegs x) hbytes s
  refine ⟨_, by rw [exec_ldVxMem_eq, hs, Act.ok_state], rfl, fun k => ?_⟩
  simpa only [mem_windowRegs, State.reg, Fin.le_def] using hV k

/-- The lowest register of a window whose byte does not exist is at the lowest address that does not exist. -/
theorem lowest_missing_address {base : Nat} {x q : Reg} (hq : q ∈ windowRegs x) (hbig : 4095 < base + q.val)
    (hfirst : ∀ r ∈ windowRegs x, r.val < q.val → base + r.val ≤ 4095) : base + q.val = max base 4096 := by
  rcases Nat.eq_zero_or_pos q.val with hzero | hpos
  · omega
  · have hqx := mem_windowRegs.mp hq
    have hbelow := hfirst ⟨q.val - 1, by omega⟩ (mem_windowRegs.mpr (by simp only; omega)) (by simp only; omega)
    simp only at hbelow
    omega

/-- Settles O36: every register whose byte exists is below `x`, so it is of the window. -/
theorem loadsBeforeAnAddressFaultStay : Obligations.LoadsBeforeAnAddressFaultStay := by
  intro x s hout
  obtain ⟨V, ev, q, hq, hbig, hfirst, hs, hV⟩ :=
    loadRegs_halted (windowRegs x) (windowRegs_ascending x) ⟨x, mem_windowRegs.mpr (Nat.le_refl _), hout⟩ s
  rw [lowest_missing_address hq hbig hfirst] at hs
  refine ⟨_, by rw [exec_ldVxMem_eq, hs, Act.halted_state], rfl, fun k => ?_⟩
  have hk : k ∈ windowRegs x ∧ s.I.toNat + k.val ≤ 4095 ↔ s.I.toNat + k.val ≤ 4095 :=
    ⟨And.right, fun hin => ⟨mem_windowRegs.mpr (by omega), hin⟩⟩
  simpa only [hk, State.reg] using hV k

end Sys2Proof.Machine

/-! # Timers, random input and keys (spec/44_timers_random_input.md) -/

namespace Sys2Proof

/-- A word of family F as the pattern column of R74 writes it, the sub-opcode beside the family. -/
theorem decodeWord_FXNN (x : Reg) (nn : Byte) {i : Instr} (h : decodeWord (wordXNN 0xF x nn) = .instr i) :
    decodeWord (BitVec.ofNat 16 (0xF000 + nn.toNat + x.val * 256)) = .instr i := by
  have hsum : 0xF000 + nn.toNat + x.val * 256 = 0xF * 4096 + x.val * 256 + nn.toNat := by omega
  rw [hsum, ← h, wordXNN]

end Sys2Proof

namespace Sys2Proof.Machine

variable {s : State}

/-! ## The tick (R160) -/

/-- The next move of the schedule is performed on a state without it and without the events of the move before. -/
theorem step_scheduled {m : Move} {rest : List Move} (h : s.schedule = m :: rest) :
    step s = perform m { s with schedule := rest, events := [] } := by
  rw [step, h]; rfl

/-- The countdown rests at zero, as the truncated subtraction does (decision D15). -/
theorem countDown_toNat (v : Byte) : (countDown v).toNat = v.toNat - 1 := by
  unfold countDown
  split
  next hzero => rw [hzero]; rfl
  next hpos => bv_omega

/-- Settles O37: the tick is performed, and each timer counts down. -/
theorem tickCountsDownToZero : Obligations.TickCountsDownToZero := fun s _ h =>
  ⟨_, step_scheduled h, rfl, countDown_toNat s.DT, countDown_toNat s.ST⟩

/-! ## Timer instructions (R161 to R163) -/

theorem startsTone_iff {old new : Byte} : startsTone old new = true ↔ old = 0#8 ∧ new ≠ 0#8 := by
  rw [startsTone, Bool.and_eq_true, beq_iff_eq, bne_iff_ne]

/-- Settles O38: the three words are encodings; the tone starts on the transition of `ST` from zero. -/
theorem timerInstructionsMoveBytes : Obligations.TimerInstructionsMoveBytes := by
  intro x s
  refine ⟨decodeWord_FXNN x 0x07#8 (decodeWord_encode (i := .ldVxDT x) rfl),
    decodeWord_FXNN x 0x15#8 (decodeWord_encode (i := .ldDTVx x) rfl),
    decodeWord_FXNN x 0x18#8 (decodeWord_encode (i := .ldSTVx x) rfl), next_setV_update s x rfl, rfl, ?_⟩
  simp only [← startsTone_iff]
  rfl

/-! ## Random (R165, R166) -/

/-- Settles O39: one register write after the draw is used; masking by `nn` and then by its complement leaves no bit. -/
theorem rndMasksAFreeDraw : Obligations.RndMasksAFreeDraw := by
  intro x nn s
  obtain ⟨evs, hset⟩ := next_setV_update s.useDraw x (v := s.rand8 &&& nn) rfl
  refine ⟨evs, hset, ?_⟩
  rw [BitVec.and_assoc, BitVec.and_not_self]
  exact BitVec.and_zero

/-! ## Keys (R167 to R169, R171) -/

/-- The key that `V[x]` selects is the one its low nibble names (decision D19). -/
theorem keyOf_eq {x : Reg} {k : Key} (h : k.val = s.V[x.val].toNat % 16) : s.keyOf x = s.KEY[k.val] := by
  obtain rfl : k = lowNibble (s.reg x) := Fin.ext h
  rfl

/-- Settles O40: both conditions are read off the one key. -/
theorem keySkipsSampleOneKey : Obligations.KeySkipsSampleOneKey := by
  intro x s k hk
  refine ⟨next_skipIf_update s ?_, next_skipIf_update s ?_⟩
  · rw [keyOf_eq hk]
  · rw [keyOf_eq hk, Bool.not_eq_true']

/-- A key that is down with every lower key up is the one reported (R171, decision D18): the key found is neither above it
nor below it. -/
theorem lowestKeyDown_eq_some {keys : KeyState} {k : Key} (hdown : keys[k.val] = true)
    (hup : ∀ j : Key, j < k → keys[j.val] = false) : lowestKeyDown keys = some k := by
  cases hfound : lowestKeyDown keys with
  | none => exact absurd hdown (Bool.eq_false_iff.mp (lowestKeyDown_none.mp hfound k))
  | some j =>
    obtain ⟨hjdown, hjup⟩ := lowestKeyDown_some hfound
    rcases Nat.lt_trichotomy j.val k.val with hlt | heq | hgt
    · exact absurd hjdown (Bool.eq_false_iff.mp (hup j hlt))
    · exact congrArg some (Fin.ext heq)
    · exact absurd hdown (Bool.eq_false_iff.mp (hjup k hgt))

/-- `LD Vx, K` with no key down is one write of `pc`, back by the two bytes of the instruction. -/
theorem exec_ldVxK_waiting (x : Reg) (h : ∀ k : Key, s.KEY[k.val] = false) : ∃ evs,
    exec (.ldVxK x) s = .next { s with pc := s.pc - 2, events := s.events ++ evs } := by
  obtain ⟨evs, hpc⟩ := setPc_update s (s.pc - 2)
  exact ⟨evs, by rw [exec_ldVxK_none x (lowestKeyDown_none.mpr h), hpc]⟩

/-- Settles O41: the wait, and the one register write that ends it. -/
theorem keyWaitRewindsOrStoresTheLowestKey : Obligations.KeyWaitRewindsOrStoresTheLowestKey := by
  refine fun x s => ⟨exec_ldVxK_waiting x, fun k hdown hup => ?_⟩
  rw [exec_ldVxK_some x (lowestKeyDown_eq_some hdown hup)]
  exact next_setV_update s x rfl

/-- One CPU step of the wait: the rewind undoes the advance past the word. -/
theorem step_waiting {x : Reg} (hsched : s.schedule = []) (hrun : s.fault = none) (hpc : s.pc.toNat ≤ 4094)
    (hword : s.byteAt s.pc.toNat ++ s.byteAt (s.pc.toNat + 1) = BitVec.ofNat 16 (0xF00A + x.val * 256))
    (hup : ∀ k : Key, s.KEY[k.val] = false) : ∃ evs, step s = .next { s with events := evs } := by
  have hdecode := decodeWord_FXNN x 0x0A#8 (decodeWord_encode (i := .ldVxK x) rfl)
  have hstep := stepRunsTheDecodedInstruction s _ ⟨.inl hsched, hrun⟩ hpc (hword ▸ hdecode)
  obtain ⟨evs, hexec⟩ := exec_ldVxK_waiting x
    (s := { s with pc := s.pc + 2, schedule := s.schedule.tail, events := [.pcChanged (s.pc + 2)] }) hup
  have hback : s.pc + 2 - 2 = s.pc := BitVec.add_sub_cancel s.pc 2
  have htail : s.schedule.tail = s.schedule := by rw [hsched, List.tail_nil]
  exact ⟨_, by rw [hstep, hexec, hback, htail]⟩

/-- A state that every step leaves as it is but for the events is left so by any number of steps. -/
theorem run_of_stationary (h : ∀ evs, ∃ evs', step { s with events := evs } = .next { s with events := evs' }) (n : Nat) :
    ∃ evs, Host.Core.run Sys2Proof.core n s = .next { s with events := evs } := by
  suffices hrun : ∀ evs, ∃ evs', Host.Core.run Sys2Proof.core n { s with events := evs } = .next { s with events := evs' }
    from hrun s.events
  induction n with
  | zero => exact fun evs => ⟨evs, rfl⟩
  | succ n ih =>
    intro evs
    obtain ⟨evs', hstep⟩ := h evs
    rw [run_succ (M := Sys2Proof.core) hstep]
    exact ih evs'

/-- Settles O42: the wait is stationary, since no condition on it speaks of the events. -/
theorem keyWaitHoldsThePc : Obligations.KeyWaitHoldsThePc := fun _ s n hsched hrun hpc hword hup =>
  run_of_stationary (fun evs => step_waiting (s := { s with events := evs }) hsched hrun hpc hword hup) n

end Sys2Proof.Machine

/-! # The display (spec/45_display.md) -/

namespace Sys2Proof.Machine

open FrameBuffer

/-! ## What a draw does to the buffer (R182, R183) -/

section draw

variable (fb : FrameBuffer) (x0 y0 : Nat)

theorem pixel_mod : pixel fb (x0 % 64) (y0 % 32) = pixel fb x0 y0 :=
  pixel_congr fb (Nat.mod_mod x0 64) (Nat.mod_mod y0 32)

theorem draw_pixel_landed {rows : List Byte} (h : rows.length ≤ 32) {i b : Nat} (hi : i < rows.length) (hb : b < 8) :
    pixel (FrameBuffer.draw fb x0 y0 rows).1 (x0 + b) (y0 + i) =
      (pixel fb (x0 + b) (y0 + i) ^^ spriteBit rows[i] b) := by
  rw [draw_pixel fb x0 y0 rows h, spriteAt_self h hi hb]

theorem draw_pixel_outside {rows : List Byte} (h : rows.length ≤ 32) {px py : Nat}
    (hout : ∀ i < rows.length, ∀ b < 8, (x0 + b) % 64 ≠ px % 64 ∨ (y0 + i) % 32 ≠ py % 32) :
    pixel (FrameBuffer.draw fb x0 y0 rows).1 px py = pixel fb px py := by
  rw [draw_pixel fb x0 y0 rows h, spriteAt_outside hout, Bool.xor_false]

theorem draw_collision_iff {rows : List Byte} (h : rows.length ≤ 32) :
    (FrameBuffer.draw fb x0 y0 rows).2 = true ↔
      ∃ i, ∃ h : i < rows.length, ∃ b < 8, spriteBit rows[i] b = true ∧ pixel fb (x0 + b) (y0 + i) = true := by
  rw [draw_collision fb x0 y0 rows h, spriteHits_iff]

/-- The sprite is XORed in twice, and XOR is its own inverse (R187). -/
theorem draw_draw {rows : List Byte} (h : rows.length ≤ 32) :
    (FrameBuffer.draw (FrameBuffer.draw fb x0 y0 rows).1 x0 y0 rows).1 = fb := by
  apply ext_pixel
  intro px py
  rw [draw_pixel _ x0 y0 rows h, draw_pixel fb x0 y0 rows h, Bool.xor_assoc, Bool.xor_self, Bool.xor_false]

/-- An on-bit of the sprite finds its pixel lit at the second draw exactly if the pixel was off at the first. -/
theorem draw_pixel_landed_on {rows : List Byte} (h : rows.length ≤ 32) {i b : Nat} (hi : i < rows.length) (hb : b < 8)
    (hon : spriteBit rows[i] b = true) :
    pixel (FrameBuffer.draw fb x0 y0 rows).1 (x0 + b) (y0 + i) = true ↔ pixel fb (x0 + b) (y0 + i) = false := by
  rw [draw_pixel_landed fb x0 y0 h hi hb, hon, Bool.xor_true, Bool.not_eq_true']

end draw

/-- Settles O47: XOR is its own inverse, and the second draw meets the pixels that the first one left. -/
theorem drawingTwiceRestores : Obligations.DrawingTwiceRestores := by
  intro fb x0 y0 rows hlen
  have h : rows.length ≤ 32 := Nat.le_trans hlen (by decide)
  refine ⟨draw_draw fb x0 y0 h, (draw_collision_iff _ x0 y0 h).trans ?_⟩
  constructor
  · rintro ⟨i, hi, b, hb, hon, hlit⟩
    exact ⟨i, hi, b, hb, hon, (draw_pixel_landed_on fb x0 y0 h hi hb hon).mp hlit⟩
  · rintro ⟨i, hi, b, hb, hon, hoff⟩
    exact ⟨i, hi, b, hb, hon, (draw_pixel_landed_on fb x0 y0 h hi hb hon).mpr hoff⟩

/-! ## CLS (R184) -/

theorem clear_getElem {x y : Nat} (hx : x < 64) (hy : y < 32) : clear[y][x] = false := by
  rw [clear, Vector.getElem_replicate, Vector.getElem_replicate]

/-- Settles O44: the buffer of the next state is the cleared one. -/
theorem clsClearsAndRequestsRedraw : Obligations.ClsClearsAndRequestsRedraw :=
  ⟨decodeWord_encode (i := .cls) rfl, fun _ => ⟨_, rfl, rfl, fun _ _ hx hy => clear_getElem hx hy⟩⟩

/-! ## DRW (R185) -/

/-- Settles O46: the sprite's bytes are read first, and the read halts. -/
theorem drwFaultTouchesNoPixel : Obligations.DrwFaultTouchesNoPixel := by
  intro x y n s hn hout
  have hrows : n.val ≠ 0 := fun h => hn (Fin.ext h)
  exact exec_drw_halted x y n (by omega)

section sprite

variable (s : State) (x y : Reg) (n : Fin 16)

theorem spriteRows_length : (s.spriteRows n).length = n.val := by
  rw [State.spriteRows, List.length_map, List.length_range]

theorem spriteRows_length_le : (s.spriteRows n).length ≤ 32 := by
  rw [spriteRows_length]; omega

theorem spriteRows_getElem {i : Nat} (hi : i < (s.spriteRows n).length) :
    (s.spriteRows n)[i] = s.byteAt (s.I.toNat + i) := by
  simp only [State.spriteRows, List.getElem_map, List.getElem_range]

/-- The frame of a draw: the pixels, VF, the events and no other field. -/
theorem drawSprite_update (rows : List Byte) : ∃ evs,
    s.drawSprite x y rows =
      { s with
        FB := (FrameBuffer.draw s.FB (s.reg x).toNat (s.reg y).toNat rows).1
        V := s.V.set 15 (flagByte (FrameBuffer.draw s.FB (s.reg x).toNat (s.reg y).toNat rows).2)
        events := s.events ++ evs ++ [.redraw] } :=
  ⟨_, rfl⟩

/-- The collision of `DRW`, in the bytes at `I` and the wrapped coordinates (R183). -/
theorem drw_collision_iff (x0 y0 : Nat) :
    (FrameBuffer.draw s.FB x0 y0 (s.spriteRows n)).2 = true ↔
      ∃ i < n.val, ∃ b < 8, (s.byteAt (s.I.toNat + i)).getLsbD (7 - b) = true ∧
        s.pixelAt ((x0 + b) % 64) ((y0 + i) % 32) = true := by
  simp only [draw_collision_iff s.FB x0 y0 (spriteRows_length_le s n), spriteRows_getElem, spriteRows_length, spriteBit,
    State.pixelAt, pixel_mod, exists_prop]

end sprite

theorem flagByte_of_iff {flag : Bool} {p : Prop} (h : flag = true ↔ p) :
    (p → flagByte flag = 1#8) ∧ (¬p → flagByte flag = 0#8) := by
  refine ⟨fun hp => ?_, fun hp => ?_⟩
  · rw [h.mpr hp]; rfl
  · rw [Bool.eq_false_iff.mpr (mt h.mp hp)]; rfl

/-- Settles O45: the laws of the draw, read at wrapped coordinates and with the sprite's rows as bytes at `I`. -/
theorem drwDrawsTheSprite : Obligations.DrwDrawsTheSprite := by
  intro x y n s hfits bit col row
  have hlen := spriteRows_length_le s n
  obtain ⟨evs, hdraw⟩ := drawSprite_update s x y (s.spriteRows n)
  obtain ⟨hhit, hmiss⟩ := flagByte_of_iff (drw_collision_iff s n (s.reg x).toNat (s.reg y).toNat)
  have hexec := exec_drw_ok x y n (hfits.imp_left (congrArg Fin.val))
  refine ⟨_, evs, by rw [hexec, hdraw], rfl, fun i hi b hb => ?landed, fun px hpx py hpy hout => ?outside,
    fun q hq => ?others, fun h => ?collision, fun h => ?noCollision⟩
  case landed =>
    have hrow : i < (s.spriteRows n).length := by rwa [spriteRows_length]
    have hbit : bit i b = spriteBit (s.spriteRows n)[i] b := by rw [spriteRows_getElem s n hrow]; rfl
    simp only [State.pixelAt, col, row, pixel_mod, hbit]
    exact draw_pixel_landed s.FB _ _ hlen hrow hb
  case outside =>
    refine draw_pixel_outside s.FB _ _ hlen fun i hi b hb => ?_
    rw [Nat.mod_eq_of_lt hpx, Nat.mod_eq_of_lt hpy]
    exact hout i (by rwa [spriteRows_length] at hi) b hb
  case others => exact State.setV_V_other s vf _ q.val q.isLt fun h => hq (Fin.ext h.symm)
  case collision => exact (State.setV_V_self s vf _).trans (hhit h)
  case noCollision => exact (State.setV_V_self s vf _).trans (hmiss h)

end Sys2Proof.Machine

/-! # Interfaces: the key source and the change notifications (spec/50_interfaces.md) -/

namespace Sys2Proof.Machine

variable {s t u : State}

/-! ## The key source (R205) -/

/-- Settles O50: the key source's move is performed, and it sets one flag of the vector. -/
theorem keySourceChangesOneFlag : Obligations.KeySourceChangesOneFlag := fun s k down rest h =>
  ⟨{ s with KEY := s.KEY.set k.val down, schedule := rest, events := [] }, step_scheduled h, rfl,
    Vector.getElem_set_self k.isLt,
    fun j hj => Vector.getElem_set_ne k.isLt j.isLt fun e => hj (Fin.ext e.symm)⟩

/-! ## A store that changes nothing

The observer is told of no such store and keeps its memory as it is; the canonical form makes that the machine's memory. -/

theorem Memory.mem_of_listed {m : Memory} {a : Nat} {v : Byte} (h : Memory.listed m a = some v) : (a, v) ∈ m := by
  induction m with
  | nil => cases h
  | cons c m ih =>
    rw [Memory.listed] at h
    split at h
    next hac => cases h; cases hac; exact List.mem_cons_self
    next => exact List.mem_cons_of_mem _ (ih h)

theorem Memory.erase_of_listed_none {m : Memory} {a : Nat} (h : Memory.listed m a = none) : Memory.erase m a = m := by
  induction m with
  | nil => rfl
  | cons c m ih =>
    rw [Memory.listed] at h
    split at h
    next => cases h
    next hac => rw [Memory.erase, if_neg hac, ih h]

theorem Memory.insert_of_listed {m : Memory} {a : Nat} {v : Byte} (hrising : m.Pairwise fun p q => p.1 < q.1)
    (h : Memory.listed m a = some v) : Memory.insert m a v = m := by
  induction m with
  | nil => cases h
  | cons c m ih =>
    obtain ⟨hc, hm⟩ := List.pairwise_cons.mp hrising
    rw [Memory.listed] at h
    split at h
    next hac => cases h; cases hac; simp [Memory.insert]
    next hac =>
      have hlt : c.1 < a := hc _ (Memory.mem_of_listed h)
      rw [Memory.insert, if_neg (by omega), if_neg hac, ih hm h]

/-- Writing the byte that is there leaves a canonical memory as it is, to the list. -/
theorem Memory.write_read {fb : FontBase} {m : Memory} (h : Memory.wf fb m) (a : Nat) :
    Memory.write fb m a (Memory.read fb m a) = m := by
  obtain ⟨hrising, hcells⟩ := h
  rw [Memory.write, Memory.read]
  cases hl : Memory.listed m a with
  | none => rw [Option.getD_none, if_pos rfl, Memory.erase_of_listed_none hl]
  | some v =>
    have hv : v ≠ resetByte fb a := (hcells _ (Memory.mem_of_listed hl)).2
    rw [Option.getD_some, if_neg hv, Memory.insert_of_listed hrising hl]

/-! ## What the events of a stretch of execution tell an observer (R209) -/

theorem Observes.refl (fb : FontBase) (w : View) : Observes fb w [] w := ⟨rfl, rfl, fun _ => rfl⟩

/-- From `s` to `t` the machine adds events that take an observer holding `s.view` to exactly `t.view`: whatever can be
observed from there on can be observed from `s` on once these events come first. -/
structure Notifies (s t : State) : Prop where
  fontBase : t.fontBase = s.fontBase
  events : ∃ evs, t.events = s.events ++ evs ∧
    ∀ es w, Observes s.fontBase t.view es w → Observes s.fontBase s.view (evs ++ es) w

/-- The observer ends with the machine's view: the conclusion of O60. -/
theorem Notifies.observes (h : Notifies s t) :
    ∃ evs, t.events = s.events ++ evs ∧ Observes s.fontBase s.view evs t.view := by
  obtain ⟨evs, hevs, hobs⟩ := h.events
  exact ⟨evs, hevs, by simpa using hobs [] t.view (Observes.refl _ _)⟩

namespace Notifies

theorem trans (h : Notifies s t) (h' : Notifies t u) : Notifies s u := by
  obtain ⟨evs, hevs, hobs⟩ := h.events
  obtain ⟨evs', hevs', hobs'⟩ := h'.events
  rw [h.fontBase] at hobs'
  refine ⟨h'.fontBase.trans h.fontBase, evs ++ evs', by rw [hevs', hevs, List.append_assoc], fun es w hw => ?_⟩
  rw [List.append_assoc]
  exact hobs _ w (hobs' es w hw)

/-- A write that changes nothing the observer holds, and tells nothing. -/
theorem silent (hfb : t.fontBase = s.fontBase) (hev : t.events = s.events) (hview : t.view = s.view) : Notifies s t :=
  ⟨hfb, [], by rw [hev, List.append_nil], fun _ _ hw => by rwa [hview] at hw⟩

theorem refl (s : State) : Notifies s s := silent rfl rfl rfl

/-- One event that fires and does to the observer what the write does to the machine. -/
theorem single {e : Event} (hfb : t.fontBase = s.fontBase) (hev : t.events = s.events ++ [e])
    (hfires : e.fires s.fontBase s.view) (hview : t.view = e.apply s.fontBase s.view) : Notifies s t :=
  ⟨hfb, [e], hev, fun _ _ hw => ⟨hfires, hview ▸ hw⟩⟩

/-- A write with its notification: the event fires where the value differs, and the view stays where it does not. -/
theorem write {differs : Bool} {e : Event} (hfb : t.fontBase = s.fontBase)
    (hev : t.events = s.events ++ changed differs e) (hfires : differs = true → e.fires s.fontBase s.view)
    (hview : t.view = if differs then e.apply s.fontBase s.view else s.view) : Notifies s t := by
  cases differs with
  | false => exact silent hfb (hev.trans (List.append_nil _)) hview
  | true => exact single hfb hev (hfires rfl) hview

/-! ## One rule per state operation -/

theorem setV (s : State) (x : Reg) (v : Byte) : Notifies s (s.setV x v) := by
  refine write rfl (s.setV_events x v) bne_iff_ne.mp ?_
  split
  next => rfl
  next hsame =>
    obtain rfl : s.V[x.val] = v := by simpa using hsame
    rw [State.view, State.setV_V, Vector.set_getElem_self]; rfl

theorem setPc (s : State) (a : Word) : Notifies s (s.setPc a) := by
  refine write rfl (s.setPc_events a) bne_iff_ne.mp ?_
  split
  next => rfl
  next hsame =>
    obtain rfl : s.pc = a := by simpa using hsame
    rfl

theorem setByte (h : Memory.wf s.fontBase s.mem) (a : Nat) (v : Byte) : Notifies s (s.setByte a v) := by
  refine write rfl (s.setByte_events a v) bne_iff_ne.mp ?_
  split
  next => rfl
  next hsame =>
    obtain rfl : s.byteAt a = v := by simpa using hsame
    rw [State.view, State.setByte_mem, State.byteAt, Memory.write_read h]; rfl

theorem setCalls (s : State) (depth : Fin 17) (entries : Vector Word 16) : Notifies s (s.setCalls depth entries) :=
  silent rfl rfl rfl

theorem skipIf (s : State) (c : Bool) : Notifies s (s.skipIf c) := by
  cases c with
  | false => exact refl s
  | true => exact setPc s _

theorem setFlagThenResult (s : State) (x : Reg) (flag : Bool) (v : Byte) : Notifies s (s.setFlagThenResult x flag v) :=
  (setV s vf _).trans (setV _ x v)

theorem drawSprite (s : State) (x y : Reg) (rows : List Byte) : Notifies s (s.drawSprite x y rows) :=
  ((silent rfl rfl rfl : Notifies s (s.setFB _)).trans (setV _ vf _)).trans (single rfl rfl trivial rfl)

theorem storeBytes (h : Memory.wf s.fontBase s.mem) (base : Nat) (bs : List Byte) :
    Notifies s (Machine.storeBytes base bs s).state := by
  induction bs generalizing base s with
  | nil => exact refl s
  | cons b bs ih =>
    rw [Machine.storeBytes]
    by_cases hlo : base ≤ 4095
    · rw [memWrite_ok hlo, Act.ok_bind]
      exact (setByte h base b).trans (ih (Memory.write_wf s.fontBase h (by omega) b) (base + 1))
    · rw [memWrite_halted (by omega), Act.halted_bind]
      exact silent rfl rfl rfl

theorem loadRegs (s : State) (base : Nat) (rs : List Reg) : Notifies s (Machine.loadRegs base rs s).state := by
  induction rs generalizing s with
  | nil => exact refl s
  | cons r rs ih =>
    rw [Machine.loadRegs, memRead]
    split
    · exact silent rfl rfl rfl
    · exact (setV s r _).trans (ih _)

end Notifies

/-! ## The instructions -/

/-- Every instruction notifies the observer of what it writes. -/
theorem exec_notifies {i : Instr} (h : Memory.wf s.fontBase s.mem) (he : exec i s = .next t) : Notifies s t := by
  cases i with
  | seImm | sneImm | seReg | sneReg | skp | sknp => cases he; exact .skipIf s _
  | ldImm | addImm | ldReg | orReg | andReg | xorReg | ldVxDT => cases he; exact .setV s _ _
  | addReg | subReg | shrReg | subnReg | shlReg => cases he; exact .setFlagThenResult s _ _ _
  | rnd => cases he; exact (.silent rfl rfl rfl : Notifies s s.useDraw).trans (.setV _ _ _)
  | jp | jpV0 => cases he; exact .setPc s _
  | ldI | addI | ldF | ldDTVx | sys => cases he; exact .silent rfl rfl rfl
  | ldSTVx => cases he; exact .write rfl rfl (fun _ => trivial) (ite_self _).symm
  | cls => cases he; exact .single rfl rfl trivial rfl
  | ldB | ldMemVx => cases he; exact .storeBytes h _ _
  | ldVxMem => cases he; exact .loadRegs s _ _
  | ret =>
    by_cases hs : 0 < s.SP.val
    · cases (exec_ret_ok hs).symm.trans he
      exact (Notifies.setCalls s _ _).trans (.setPc _ _)
    · cases (exec_ret_empty (by omega)).symm.trans he
      exact .silent rfl rfl rfl
  | call nnn =>
    by_cases hs : s.SP.val < 16
    · cases (exec_call_ok nnn hs).symm.trans he
      exact (Notifies.setCalls s _ _).trans (.setPc _ _)
    · cases (exec_call_full nnn (by omega)).symm.trans he
      exact .silent rfl rfl rfl
  | drw x y n =>
    by_cases hn : n.val = 0 ∨ s.I.toNat + n.val ≤ 4096
    · cases (exec_drw_ok x y n hn).symm.trans he
      exact .drawSprite s x y _
    · cases (exec_drw_halted x y n hn).symm.trans he
      exact .silent rfl rfl rfl
  | ldVxK x =>
    cases hk : lowestKeyDown s.KEY with
    | none => cases (exec_ldVxK_none x hk).symm.trans he; exact .setPc s _
    | some k => cases (exec_ldVxK_some x hk).symm.trans he; exact .setV s x _

/-- Settles O60: every instruction notifies, so an observer who starts with the machine's view ends with it. -/
theorem notificationsLetAnObserverFollow : Obligations.NotificationsLetAnObserverFollow :=
  fun _ _ _ hwf he => (exec_notifies hwf he).observes

end Sys2Proof.Machine

/-! # Exceptions (spec/60_exceptions.md) -/

namespace Sys2Proof.Machine

variable {s t : State} {i : Instr}

/-! ## Every move answers a next state (R225) -/

theorem exec_next (i : Instr) (s : State) : ∃ t, exec i s = .next t :=
  let ⟨t, ht, _⟩ := exec_frame i s
  ⟨t, ht⟩

theorem execWord_next (w : Word) (s : State) : ∃ t, execWord w s = .next t := by
  cases hd : decodeWord w with
  | instr i => rw [execWord_instr hd]; exact exec_next i s
  | illegal v => exact ⟨_, execWord_illegal (decodeWord_illegal hd ▸ hd)⟩

theorem cpuStep_next (s : State) : ∃ t, cpuStep s = .next t := by
  by_cases hrun : s.fault = none
  · by_cases hpc : s.pc.toNat ≤ 4094
    · rw [cpuStep, hrun, fetch_ok hpc]
      exact execWord_next _ _
    · exact ⟨_, cpuStep_unfetchable hrun (by omega)⟩
  · exact ⟨s, cpuStep_of_halted hrun⟩

theorem perform_next (m : Move) (s : State) : ∃ t, perform m s = .next t := by
  cases m with
  | cpu => exact cpuStep_next s
  | tick | key | boot => exact ⟨_, rfl⟩

/-- Settles O10: the next move is the CPU's on an empty schedule, and else the one that stands first. -/
theorem everyStepAnswersANextState : Obligations.EveryStepAnswersANextState := by
  intro s
  match hs : s.schedule with
  | [] => rw [step_cpu (.inl hs)]; exact cpuStep_next _
  | m :: rest => rw [step_scheduled hs]; exact perform_next m _

/-! ## The latch after an instruction (R221 to R224) -/

/-- The instructions that raise in no state are those that R221 to R224 do not list. -/
theorem faultOf_of_not_mayRaise (h : mayRaise i = false) : faultOf i s = none := by
  cases i with
  | ret | call | sys | drw | ldB | ldMemVx | ldVxMem => cases h
  | _ => rfl

/-- A store faults exactly if the address of its last byte does not exist. -/
theorem storeBytes_fault {base last : Nat} {bs : List Byte} (h : bs.length = last + 1) (s : State) :
    (storeBytes base bs s).state.fault =
      if base + last > 4095 then some .addressOutOfBounds else s.fault := by
  split
  next hout => rw [storeBytes_state_of_overflows (List.ne_nil_of_length_eq_add_one h) (by omega)]
  next hin => rw [storeBytes_state_of_fits (by omega)]

/-- A load of a window faults exactly if the byte of its last register does not exist. -/
theorem loadWindow_fault (base : Nat) (x : Reg) (s : State) :
    (loadRegs base (windowRegs x) s).state.fault =
      if base + x.val > 4095 then some .addressOutOfBounds else s.fault := by
  split
  next hout =>
    obtain ⟨V, ev, q, -, -, -, hs, -⟩ :=
      loadRegs_halted (windowRegs x) (windowRegs_ascending x) ⟨x, mem_windowRegs.mpr (Nat.le_refl _), hout⟩ s
    rw [hs, Act.halted_state]
  next hin =>
    have hbytes : ∀ r ∈ windowRegs x, base + r.val ≤ 4095 := fun r hr =>
      Nat.le_trans (Nat.add_le_add_left (mem_windowRegs.mp hr) _) (Nat.le_of_not_lt hin)
    obtain ⟨V, ev, hs, -⟩ := loadRegs_ok (windowRegs x) hbytes s
    rw [hs, Act.ok_state]

theorem exec_ret_fault (hrun : s.fault = none) (he : exec .ret s = .next t) : t.fault = faultOf .ret s := by
  by_cases hempty : s.SP = 0
  · cases (exec_ret_empty (congrArg Fin.val hempty)).symm.trans he
    exact (if_pos hempty).symm
  · cases (exec_ret_ok (Nat.pos_of_ne_zero fun h => hempty (Fin.ext h))).symm.trans he
    exact hrun.trans (if_neg hempty).symm

theorem exec_call_fault {nnn : Addr12} (hrun : s.fault = none) (he : exec (.call nnn) s = .next t) :
    t.fault = faultOf (.call nnn) s := by
  by_cases hfull : s.SP = 16
  · cases (exec_call_full nnn (congrArg Fin.val hfull)).symm.trans he
    exact (if_pos hfull).symm
  · cases (exec_call_ok nnn (Fin.val_lt_last hfull)).symm.trans he
    exact hrun.trans (if_neg hfull).symm

theorem exec_drw_fault {x y : Reg} {n : Fin 16} (hrun : s.fault = none) (he : exec (.drw x y n) s = .next t) :
    t.fault = faultOf (.drw x y n) s := by
  by_cases hfits : n.val = 0 ∨ s.I.toNat + n.val ≤ 4096
  · cases (exec_drw_ok x y n hfits).symm.trans he
    exact hrun.trans (if_neg (by omega)).symm
  · cases (exec_drw_halted x y n hfits).symm.trans he
    exact (if_pos (by omega)).symm

theorem exec_fault (hrun : s.fault = none) (he : exec i s = .next t) : t.fault = faultOf i s := by
  cases hm : mayRaise i with
  | false => rw [((frameOf_exec he).latch hm).1, hrun, faultOf_of_not_mayRaise hm]
  | true =>
    cases i with
    | ret => exact exec_ret_fault hrun he
    | call => exact exec_call_fault hrun he
    | sys => cases he; rfl
    | drw => exact exec_drw_fault hrun he
    | ldB x => cases he; rw [storeBytes_fault (bcdDigits_length _), hrun]; rfl
    | ldMemVx x => cases he; rw [storeBytes_fault (window_length s x), hrun]; rfl
    | ldVxMem x => cases he; rw [loadWindow_fault, hrun]; rfl
    | _ => cases hm

/-- Settles O53: the instruction answers a next state, and its latch is the listed one. -/
theorem instructionsFaultExactlyAsListed : Obligations.InstructionsFaultExactlyAsListed := by
  intro i s hrun
  obtain ⟨t, ht⟩ := exec_next i s
  exact ⟨t, ht, exec_fault hrun ht⟩

/-! ## The tick between instructions (R230) -/

/-- The second state is the first after a tick. -/
def Ticked (s u : State) : Prop := u = s.tick

/-- The countdown reads and writes the timers only, so it commutes with every update of anything else. -/
theorem ticked_isCongruence : IsCongruence Ticked := by
  constructor <;> (intros; rename_i h; obtain rfl := h; rfl)

/-- Settles O59: being one tick later is a congruence that keeps the registers and the keys. -/
theorem ticksCommuteWithOtherInstructions : Obligations.TicksCommuteWithOtherInstructions := by
  intro i s t h htimers
  obtain ⟨t', u, ht, hu, hR⟩ := ticked_isCongruence.exec_related (s := s) rfl i (fun _ _ => rfl) (fun _ => rfl)
    (fun hi => by rw [htimers] at hi; cases hi)
  cases ht.symm.trans h
  rw [hu, hR]

end Sys2Proof.Machine

/-! # Boot and the end of a run (spec/70_reset_and_hazards.md) -/

namespace Sys2Proof.Machine

variable {s : State} {program : List Byte}

/-! ## The jump to itself (R254 (c), decision D30) -/

theorem atSelfJump_iff : s.atSelfJump = true ↔
    s.fault = none ∧ s.pc.toNat ≤ 4094 ∧ s.wordAtPc = BitVec.ofNat 16 (0x1000 + s.pc.toNat) := by
  simp only [State.atSelfJump, Bool.and_eq_true, Option.isNone_iff_eq_none, decide_eq_true_eq, and_assoc]
  refine and_congr_right fun _ => and_congr_right fun hpc => ?_
  rw [← BitVec.toNat_inj, BitVec.toNat_ofNat, Nat.mod_eq_of_lt (by omega)]

/-- One CPU step of the ended run: `pc` is a 12-bit address, so the jump takes the advanced `pc` back to it. -/
theorem step_atSelfJump (hsched : s.schedule = []) (h : s.atSelfJump = true) :
    ∃ evs, step s = .next { s with events := evs } := by
  obtain ⟨hrun, hpc, hword⟩ := atSelfJump_iff.mp h
  have htarget : (s.pc.setWidth 12).toNat = s.pc.toNat := by
    rw [BitVec.toNat_setWidth, Nat.mod_eq_of_lt (by omega)]
  obtain ⟨hdecode, evs, hexec⟩ := jpSetsPcToItsTarget (s.pc.setWidth 12)
    { s with pc := s.pc + 2, schedule := s.schedule.tail, events := [.pcChanged (s.pc + 2)] }
  rw [htarget, ← hword] at hdecode
  have hstep := stepRunsTheDecodedInstruction s _ ⟨.inl hsched, hrun⟩ hpc hdecode
  have hback : BitVec.ofNat 16 (s.pc.setWidth 12).toNat = s.pc := by
    rw [htarget, BitVec.ofNat_toNat, BitVec.setWidth_eq]
  have htail : s.schedule.tail = s.schedule := by rw [hsched, List.tail_nil]
  exact ⟨_, by rw [hstep, hexec, hback, htail]⟩

/-- Settles O43: the ended run is stationary, since no condition on it speaks of the events. -/
theorem selfJumpIsAFixedPoint : Obligations.SelfJumpIsAFixedPoint := fun s n hsched h =>
  run_of_stationary (fun evs => step_atSelfJump (s := { s with events := evs }) hsched h) n

/-! ## The boot (R250, R252; spec/50_interfaces.md R207): the load of the program, seen from the state before the reset -/

/-- `PROG_ORIGIN` is 0x200 (R5). -/
theorem boot_eq (s : State) (program : List Byte) : s.boot program = (storeBytes 0x200 program s.resetAll).state := rfl

theorem boot_frame (s : State) (program : List Byte) : s.boot program =
    { State.reset with
      mem := (s.boot program).mem, events := (s.boot program).events
      fault := (s.boot program).fault, faultInfo := (s.boot program).faultInfo
      fontBase := s.fontBase, draws := s.draws, schedule := s.schedule } := by
  obtain ⟨m, ev, f, inf, hs⟩ := storeBytes_frame 0x200 program s.resetAll
  rw [boot_eq, hs]
  rfl

theorem boot_fault_of_fits (h : program.length ≤ 3584) : (s.boot program).fault = none := by
  rw [boot_eq, storeBytes_state_of_fits (by omega)]
  rfl

/-- A program that is too long latches the first address past the memory (decision D24). -/
theorem boot_fault_of_overflows (h : 3584 < program.length) :
    (s.boot program).fault = some .addressOutOfBounds ∧ (s.boot program).faultInfo = 4096#17 := by
  have hne : program ≠ [] := List.ne_nil_of_length_pos (by omega)
  rw [boot_eq, storeBytes_state_of_overflows hne (by omega)]
  exact ⟨rfl, rfl⟩

theorem boot_byteAt_program {j : Nat} (h : j < program.length) (hfits : j < 3584) :
    (s.boot program).byteAt (0x200 + j) = program[j] := by
  rw [boot_eq, storeBytes_byteAt_inside (resetAll_inv s).mem_wf h (by omega),
    List.getD_eq_getElem program 0 h]

theorem boot_byteAt_outside {a : Nat} (h : a < 0x200 ∨ 0x200 + program.length ≤ a ∨ 4095 < a) :
    (s.boot program).byteAt a = resetByte s.fontBase a :=
  storeBytes_byteAt_outside (resetAll_inv s).mem_wf h

/-- Settles O49: the boot is performed on the rest of the schedule, and does what the lemmas on it say. -/
theorem bootResetsAndLoads : Obligations.BootResetsAndLoads := fun s program rest h =>
  ⟨State.boot { s with schedule := rest, events := [] } program, step_scheduled h, boot_frame _ program,
    boot_fault_of_fits, boot_fault_of_overflows, fun _ => boot_byteAt_program, fun _ => boot_byteAt_outside⟩

end Sys2Proof.Machine
